-- ==== Sys2Proof/Word.lean ====
section
/-! DEFINITION. The word types of CORE: 32-bit registers and command words, 8-bit payload
bytes, 24-bit pixel words (00_scope.md R8). -/

namespace Sys2Proof

/-- A register, a command word, a host data word or a host address (R8, R50, R75). -/
abbrev Word := BitVec 32

/-- A payload byte (R44). -/
abbrev Byte := BitVec 8

/-- A pixel word: R in bits 23:16, G in bits 15:8, B in bits 7:0 (R45). -/
abbrev Pixel := BitVec 24

end Sys2Proof
end

