-- ==== Sys2Proof/Config.lean ====
section
/-! DEFINITION. The open parameters of CORE (00_scope.md R9): what one build of the hardware
fixes. A model takes them as arguments: they stand in `State` as the constant registers GEOM_MAX
and PBUF_SIZE, so every statement about all states is a statement about all builds. -/

namespace Sys2Proof

/-- The open parameters of R9. -/
structure Params where
  /-- GRID_MAX_W: the largest accepted image width. -/
  gridMaxW : Nat
  /-- GRID_MAX_H: the largest accepted image height. -/
  gridMaxH : Nat
  /-- PBUF_BYTES: the number of bytes of PIN and of POUT. -/
  pbufBytes : Nat
  deriving DecidableEq, Repr

/-- The legal values of R9. Natural-number subtraction gives the rule's
`max(0, floor(3 * GRID_MAX_W * GRID_MAX_H / 8) - 4)`. -/
abbrev Params.legal (p : Params) : Prop :=
  (1 ≤ p.gridMaxW ∧ p.gridMaxW ≤ 65535) ∧ (1 ≤ p.gridMaxH ∧ p.gridMaxH ≤ 65535) ∧
    (3 * p.gridMaxW * p.gridMaxH / 8 - 4 ≤ p.pbufBytes ∧ p.pbufBytes ≤ 2 ^ 32 - 1)

/-- DESIGN CHOICE (unsafe, log entry 1): the build `Machine.State.reset` stands for, the one the
test vectors of 95_test_vectors.md name (R10). No statement rests on these three numbers. -/
def Config.params : Params := { gridMaxW := 10, gridMaxH := 10, pbufBytes := 33 }

end Sys2Proof
end

