-- ==== Sys2Proof/Syntax.lean ====
section
/-! DEFINITION. The commands of CMDSET-1: one constructor per row of the opcode table
(30_encoding.md R76, R80), the channels (R79) and the three fields of a command word (R75). -/

namespace Sys2Proof

/-- A colour channel (R13, R79). -/
inductive Channel where
  | r
  | g
  | b
  deriving DecidableEq, Repr

/-- A legal command (R80). Operands come from registers, so a command carries none; the channel
of TOGGLE and READBIT is part of the row (R77, R88). -/
inductive Instr where
  /-- CAPACITY, R104. -/
  | capacity
  /-- COORD, R117. -/
  | coord
  /-- FRAMEBIT, R118. -/
  | framebit
  /-- MAP, R119. -/
  | map
  /-- TOGGLE.R, R131. -/
  | toggleR
  /-- TOGGLE.G, R131. -/
  | toggleG
  /-- TOGGLE.B, R131. -/
  | toggleB
  /-- ENCODE, R132. -/
  | encode
  /-- READBIT.R, R151. -/
  | readbitR
  /-- READBIT.G, R151. -/
  | readbitG
  /-- READBIT.B, R151. -/
  | readbitB
  /-- DECODE, R154. -/
  | decode
  deriving DecidableEq, Repr

/-- The fields of a command word, legal or not (R75). -/
structure CommandFields where
  /-- Bits 31:6, reserved. -/
  rsv : BitVec 26
  /-- Bits 5:4, the channel code. -/
  ch : BitVec 2
  /-- Bits 3:0, the operation code. -/
  op : BitVec 4
  deriving DecidableEq, Repr

end Sys2Proof
end

