-- ==== Sys2Proof/WellFormed.lean ====
section
/-! DEFINITION. Which command words are legal, said by their fields and apart from the decoder
(30_encoding.md R76 to R78). Every term of `Instr` is well formed, because it has no operand
field: the checks are on the fields of a word. -/

namespace Sys2Proof

/-- The operations whose CH field names a channel: TOGGLE and READBIT (R76, R77). -/
abbrev CommandFields.usesChannel (f : CommandFields) : Prop := f.op = 0x5 ∨ f.op = 0x7

/-- R76: the operation code is one of 0x1 to 0x8. -/
abbrev CommandFields.opLegal (f : CommandFields) : Prop := 1 ≤ f.op.toNat ∧ f.op.toNat ≤ 8

/-- R77: CH names a channel where the operation uses one, and is 0 elsewhere. -/
abbrev CommandFields.chLegal (f : CommandFields) : Prop :=
  if f.usesChannel then f.ch ≠ 3 else f.ch = 0

/-- R78: the reserved bits are 0. -/
abbrev CommandFields.rsvLegal (f : CommandFields) : Prop := f.rsv = 0

/-- A legal command word, by its fields. -/
abbrev CommandFields.wellFormed (f : CommandFields) : Prop :=
  f.rsvLegal ∧ f.opLegal ∧ f.chLegal

end Sys2Proof
end

