-- ==== Sys2Proof/Decode.lean ====
section
/-! DEFINITION. The decoder of command words, total on all 2^32 words (30_encoding.md R80), and
the encoder written from the same table. -/

namespace Sys2Proof

/-- The three fields of a command word (R75). -/
def commandFields (w : Word) : CommandFields :=
  { rsv := w.extractLsb' 6 26, ch := w.extractLsb' 4 2, op := w.extractLsb' 0 4 }

/-- The channel code of a channel (R79). -/
def Channel.code : Channel → BitVec 2
  | .r => 0
  | .g => 1
  | .b => 2

/-- TOGGLE of the channel a CH field names; CH = 3 is illegal (R77). -/
def decodeToggle (ch : BitVec 2) : Option Instr :=
  if ch = 0 then some .toggleR
  else if ch = 1 then some .toggleG
  else if ch = 2 then some .toggleB
  else none

/-- READBIT of the channel a CH field names; CH = 3 is illegal (R77). -/
def decodeReadbit (ch : BitVec 2) : Option Instr :=
  if ch = 0 then some .readbitR
  else if ch = 1 then some .readbitG
  else if ch = 2 then some .readbitB
  else none

/-- The case on OP of R80. `none` is ILLEGAL. -/
def decodeFields (f : CommandFields) : Option Instr :=
  if f.rsv ≠ 0 then none
  else if f.op = 0x1 then (if f.ch = 0 then some .capacity else none)
  else if f.op = 0x2 then (if f.ch = 0 then some .coord else none)
  else if f.op = 0x3 then (if f.ch = 0 then some .framebit else none)
  else if f.op = 0x4 then (if f.ch = 0 then some .map else none)
  else if f.op = 0x5 then decodeToggle f.ch
  else if f.op = 0x6 then (if f.ch = 0 then some .encode else none)
  else if f.op = 0x7 then decodeReadbit f.ch
  else if f.op = 0x8 then (if f.ch = 0 then some .decode else none)
  else none

/-- The decoder of R80: the command of a word, or `none` for ILLEGAL. -/
def decode (w : Word) : Option Instr := decodeFields (commandFields w)

/-- The OP and CH fields of a command (R76, R79). -/
def encodeFields : Instr → CommandFields
  | .capacity => { rsv := 0, ch := 0, op := 0x1 }
  | .coord => { rsv := 0, ch := 0, op := 0x2 }
  | .framebit => { rsv := 0, ch := 0, op := 0x3 }
  | .map => { rsv := 0, ch := 0, op := 0x4 }
  | .toggleR => { rsv := 0, ch := Channel.r.code, op := 0x5 }
  | .toggleG => { rsv := 0, ch := Channel.g.code, op := 0x5 }
  | .toggleB => { rsv := 0, ch := Channel.b.code, op := 0x5 }
  | .encode => { rsv := 0, ch := 0, op := 0x6 }
  | .readbitR => { rsv := 0, ch := Channel.r.code, op := 0x7 }
  | .readbitG => { rsv := 0, ch := Channel.g.code, op := 0x7 }
  | .readbitB => { rsv := 0, ch := Channel.b.code, op := 0x7 }
  | .decode => { rsv := 0, ch := 0, op := 0x8 }

/-- The word with given fields: `{RSV, CH, OP}` (R75). -/
def CommandFields.word (f : CommandFields) : Word := f.rsv ++ f.ch ++ f.op

/-- The command word of a command (R80). -/
def encode (i : Instr) : Word := (encodeFields i).word

/-- The instruction of an opcode-table row's word `w` of `nbits` bits. A command word is written to
CMD as one 32-bit value and never as bytes (R51, R59, R75), so its bits are the table's bits; a
number that needs more than 32 bits is no command word (R83). Log entry 11. -/
def decodeTableWord (nbits w : Nat) : Option Instr :=
  if w % 2 ^ nbits < 2 ^ 32 then decode (BitVec.ofNat 32 (w % 2 ^ nbits)) else none

end Sys2Proof
end

