-- ==== Sys2Proof/Machine/Fields.lean ====
section
/-! DEFINITION. The bit fields of the packed 16 + 16 bit registers and of host data words
(10_state.md R29, R30, R35, R36, R38; 20_memory.md R54). -/

namespace Sys2Proof.Machine

/-- Bits 31:16: W of a dimensions register, X of a position register. -/
def hi16 (w : Word) : BitVec 16 := w.extractLsb' 16 16

/-- Bits 15:0: H of a dimensions register, Y of a position register. -/
def lo16 (w : Word) : BitVec 16 := w.extractLsb' 0 16

/-- `{a, b}` of two 16-bit fields (R11). -/
def pair16 (a b : BitVec 16) : Word := a ++ b

/-- The GEOM_MAX word of a build (R38). -/
def geomMaxWord (p : Params) : Word :=
  pair16 (BitVec.ofNat 16 p.gridMaxW) (BitVec.ofNat 16 p.gridMaxH)

/-- The PBUF_SIZE word of a build (R39). -/
def pbufSizeWord (p : Params) : Word := BitVec.ofNat 32 p.pbufBytes

end Sys2Proof.Machine
end

