-- ==== Sys2Proof/Machine/State.lean ====
section
/-! DEFINITION. The architectural state of CORE (10_state.md R20), the reasons a step stops, the
host's transactions, and the state after reset (70_reset_and_hazards.md R200). -/

namespace Sys2Proof.Machine

/-- The model faults of 60_exceptions.md R180. The hardware's behaviour is not defined there, so
each is a safe stop: the model has no run past it. -/
inductive Fault where
  /-- A host transaction other than a read of STATUS while STATUS.BUSY = 1 (R57). Raised by the
  host port. Safe. -/
  | hostBusy
  /-- A host transaction at an out-of-range or misaligned address (R56). Raised by the host port.
  Safe. -/
  | hostRange
  /-- A read of a grid cell or buffer byte that holds no value (R60). Raised by the host port and by
  FRAMEBIT, MAP, TOGGLE, ENCODE, READBIT and DECODE. Safe. -/
  | uninitRead
  deriving DecidableEq, Repr

/-- The reasons an instruction has no meaning. -/
inductive Refusal where
  /-- Raised by `exec` alone, for an instruction without a meaning yet; no arm raises it now.
  Safe. -/
  | notModelled (mnemonic : String)
  deriving DecidableEq, Repr

/-- The fields of STATUS (R24). The reserved bits read as zero and ignore writes, so they have no
storage; the word the host reads is `Status.word`. -/
structure Status where
  /-- Bit 0 (R25). -/
  busy : Bool
  /-- Bit 1 (R26). -/
  done : Bool
  /-- Bits 7:4 (R27, R173). -/
  err : BitVec 4
  /-- Bit 8 (R28). -/
  sticky : Bool
  deriving DecidableEq, Repr

/-- The fields of RES_MISC (R37). The reserved bits read 0 and have no storage; the word the host
reads is `ResMisc.word`. -/
structure ResMisc where
  /-- Bits 1:0, the channel code of the last coordinate produced. -/
  ch : BitVec 2
  /-- Bit 8, the last frame bit produced or channel bit read. -/
  bit : Bool
  deriving DecidableEq, Repr

/-- A memory of `n`-bit cells as (address, value) pairs. An unlisted address holds no value (R43,
R44, R48). A byte buffer is a list of `Host.Cell`. The canonical form is `Memory.wf`. -/
abbrev Memory (n : Nat) := List (Nat × BitVec n)

/-- The two grid planes (R43). -/
inductive Plane where
  | a
  | b
  deriving DecidableEq, Repr

/-- A host transaction (R50): its space, its address and, for a write, its data. Every address is
taken as 32 bits wide (log entry 19). -/
inductive Transaction where
  /-- Read of a 32-bit word in space REG. -/
  | readReg (addr : Word)
  /-- Write of a 32-bit word in space REG. -/
  | writeReg (addr data : Word)
  /-- Read in space GRID_A or GRID_B. -/
  | readGrid (p : Plane) (addr : Word)
  /-- Write of a 32-bit bus word in space GRID_A or GRID_B. -/
  | writeGrid (p : Plane) (addr data : Word)
  /-- Read of a byte in space PIN. -/
  | readPin (addr : Word)
  /-- Write of a byte in space PIN. -/
  | writePin (addr : Word) (data : Byte)
  /-- Read of a byte in space POUT. -/
  | readPout (addr : Word)
  /-- Write of a byte in space POUT. -/
  | writePout (addr : Word) (data : Byte)
  deriving DecidableEq, Repr

/-- One move of a run (R213): a host transaction, the sequencer's turn, or the reset input. -/
inductive Turn where
  | host (t : Transaction)
  | sequencer
  | reset
  deriving DecidableEq, Repr

/-- The data a host read returns: a word of REG or of a grid space, or a byte of a buffer (R50). -/
inductive Reply where
  | word (w : Word)
  | byte (b : Byte)
  deriving DecidableEq, Repr

/-- The state of CORE (R20), the record of model faults (R47), and the model's own two fields of
the host's side. -/
structure State where
  /-- CMD (R23); the pending command word while BUSY = 1 (R46). -/
  cmd : Word
  /-- STATUS (R24); BUSY is the pending bit (R46). -/
  status : Status
  /-- ORG_DIM (R29). -/
  orgDim : Word
  /-- MOD_DIM (R30). -/
  modDim : Word
  /-- LEN (R31). -/
  len : Word
  /-- CAP (R32). -/
  cap : Word
  /-- OUT_LEN (R33). -/
  outLen : Word
  /-- IDX (R34). -/
  idx : Word
  /-- PXY (R35). -/
  pxy : Word
  /-- RES_XY (R36). -/
  resXY : Word
  /-- RES_MISC (R37). -/
  resMisc : ResMisc
  /-- GEOM_MAX (R38), the parameters GRID_MAX_W and GRID_MAX_H of R9. -/
  geomMax : Word
  /-- PBUF_SIZE (R39), the parameter PBUF_BYTES of R9. -/
  pbufSize : Word
  /-- Grid plane A (R43), keyed by `{x, y}`. -/
  gridA : Memory 24
  /-- Grid plane B (R43), keyed by `{x, y}`. -/
  gridB : Memory 24
  /-- The payload-in buffer (R44). -/
  pin : List Host.Cell
  /-- The payload-out buffer (R44). -/
  pout : List Host.Cell
  /-- The record of model faults (R47). Not hardware state. -/
  faults : List Fault
  /-- The model's own: the moves still to come, in order (R66, R213; log entry 3). -/
  turns : List Turn
  /-- The model's own: what the last host transaction returned (R215; log entry 8). -/
  reply : Option Reply
  deriving DecidableEq, Repr

/-- The state after reset of the build with given GEOM_MAX and PBUF_SIZE words (R200): every other
register 0, no cell and no byte holding a value, no command pending, the fault record empty. -/
def State.resetOf (geomMax pbufSize : Word) : State :=
  { cmd := 0
    status := { busy := false, done := false, err := 0, sticky := false }
    orgDim := 0
    modDim := 0
    len := 0
    cap := 0
    outLen := 0
    idx := 0
    pxy := 0
    resXY := 0
    resMisc := { ch := 0, bit := false }
    geomMax := geomMax
    pbufSize := pbufSize
    gridA := []
    gridB := []
    pin := []
    pout := []
    faults := []
    turns := []
    reply := none }

/-- The state after reset of the build with parameters `p`. -/
def State.resetWith (p : Params) : State := State.resetOf (geomMaxWord p) (pbufSizeWord p)

/-- A model refuses to be built with parameters outside R9 (R204). -/
def State.build (p : Params) : Option State := if p.legal then some (State.resetWith p) else none

/-- The machine right after reset (R200), for the build of `Config.params` (log entry 1). -/
def State.reset : State := State.resetWith Config.params

end Sys2Proof.Machine
end

