-- ==== Sys2Proof/Machine/Flags.lean ====
section
/-! DEFINITION. STATUS and RES_MISC: the words the host reads, the error codes, and every write of
STATUS (10_state.md R24 to R28, R37; 60_exceptions.md R170 to R173). -/

namespace Sys2Proof.Machine

/-- The word of STATUS: BUSY bit 0, DONE bit 1, ERR bits 7:4, STICKY bit 8, reserved bits 0
(R24). -/
def Status.word (s : Status) : Word :=
  0#23 ++ BitVec.ofBool s.sticky ++ s.err ++ 0#2 ++ BitVec.ofBool s.done ++ BitVec.ofBool s.busy

/-- The word of RES_MISC: CH bits 1:0, BIT bit 8, reserved bits 0 (R37). -/
def ResMisc.word (m : ResMisc) : Word := 0#23 ++ BitVec.ofBool m.bit ++ 0#6 ++ m.ch

/-- The errors a command raises (R172, R173). -/
inductive Err where
  /-- ILLEGAL_COMMAND (R174). -/
  | illegalCommand
  /-- INVALID_INPUT (R175). -/
  | invalidInput
  /-- CAPACITY_EXCEEDED (R176). -/
  | capacityExceeded
  /-- TRUNCATED_PAYLOAD (R177). -/
  | truncatedPayload
  deriving DecidableEq, Repr

/-- The error codes (R173). -/
def Err.code : Err → BitVec 4
  | .illegalCommand => 1
  | .invalidInput => 2
  | .capacityExceeded => 3
  | .truncatedPayload => 4

/-- STATUS at the issue of a command: BUSY <- 1, DONE <- 0, ERR and STICKY unchanged (R170). -/
def Status.issue (s : Status) : Status := { s with busy := true, done := false }

/-- STATUS at the end of a perform step: BUSY <- 0, DONE <- 1, ERR <- the code, STICKY <- 1 if the
code is not 0 (R171). -/
def Status.finish (s : Status) (code : BitVec 4) : Status :=
  { busy := false, done := true, err := code, sticky := s.sticky || code != 0 }

/-- STATUS after a host write of `v`: STICKY is cleared if bit 8 of `v` is 1, and nothing else
changes (R24, R28). -/
def Status.hostWrite (s : Status) (v : Word) : Status :=
  { s with sticky := s.sticky && !v.getLsbD 8 }

end Sys2Proof.Machine
end

