-- ==== Sys2Proof/Machine/Operands.lean ====
section
/-! DEFINITION. Operand and result assembly (30_encoding.md R81, R82), the dimension check, the
parameters read from the constant registers (R38, R39) and the constant tables (R40 to R42). -/

namespace Sys2Proof.Machine

/-- The dimensions of a grid, as unbounded integers (R81). -/
structure Dims where
  w : Nat
  h : Nat
  deriving DecidableEq, Repr

/-- W and H of a dimensions register (R29, R30, R81). -/
def dimsOf (r : Word) : Dims := { w := (hi16 r).toNat, h := (lo16 r).toNat }

/-- The origin dimensions (R81). -/
def State.orgDims (s : State) : Dims := dimsOf s.orgDim

/-- The modified dimensions (R81). -/
def State.modDims (s : State) : Dims := dimsOf s.modDim

/-- L, from LEN (R81). -/
def State.lenNat (s : State) : Nat := s.len.toNat

/-- i or k, from IDX (R81). -/
def State.idxNat (s : State) : Nat := s.idx.toNat

/-- The column x of PXY (R35, R81). -/
def State.posX (s : State) : Nat := (hi16 s.pxy).toNat

/-- The row y of PXY (R35, R81). -/
def State.posY (s : State) : Nat := (lo16 s.pxy).toNat

/-- GRID_MAX_W (R9, R38). -/
def State.gridMaxW (s : State) : Nat := (hi16 s.geomMax).toNat

/-- GRID_MAX_H (R9, R38). -/
def State.gridMaxH (s : State) : Nat := (lo16 s.geomMax).toNat

/-- PBUF_BYTES (R9, R39). -/
def State.pbufBytes (s : State) : Nat := s.pbufSize.toNat

/-- The parameters of the build a state belongs to (R9). -/
def State.params (s : State) : Params :=
  { gridMaxW := s.gridMaxW, gridMaxH := s.gridMaxH, pbufBytes := s.pbufBytes }

/-- `validDims(W, H)` of R81. -/
abbrev State.validDims (s : State) (d : Dims) : Prop :=
  (1 ≤ d.w ∧ d.w ≤ s.gridMaxW) ∧ (1 ≤ d.h ∧ d.h ≤ s.gridMaxH)

/-- The pending command (R46): the word in CMD while BUSY = 1 (log entry 9). -/
def State.pending (s : State) : Option Word := if s.status.busy then some s.cmd else none

/-- ENC_MASK (R40). -/
def encMask : Channel → Pixel
  | .r => 0x010000
  | .g => 0x000100
  | .b => 0x000001

/-- DEC_MASK (R41). -/
def decMask : Channel → Pixel
  | .r => 0xFF0000
  | .g => 0x00FF00
  | .b => 0x0000FF

/-- BITMASK[0..7] (R42). -/
def bitMasks : List Byte := [0x80, 0x40, 0x20, 0x10, 0x08, 0x04, 0x02, 0x01]

/-- `BITMASK[b]`, applied to b below 8 only. -/
def bitMask (b : Nat) : Byte := bitMasks.getD b 0

/-- The channel of a channel code (R79), applied to codes 0, 1 and 2 only: a coordinate's code is
`i div (W * H)` with i < 3WH (R110; log entry 12). -/
def channelOfCode : Nat → Channel
  | 0 => .r
  | 1 => .g
  | _ => .b

/-- `RES_XY <- {x[15:0], y[15:0]}` (R82). -/
def State.setResXY (s : State) (x y : Nat) : State :=
  { s with resXY := pair16 (BitVec.ofNat 16 x) (BitVec.ofNat 16 y) }

/-- `RES_MISC.CH <- c`; BIT keeps its value (R37, R82). -/
def State.setResCh (s : State) (c : Channel) : State :=
  { s with resMisc := { s.resMisc with ch := c.code } }

/-- `RES_MISC.BIT <- b`; CH keeps its value (R37, R82). -/
def State.setResBit (s : State) (b : Bool) : State :=
  { s with resMisc := { s.resMisc with bit := b } }

/-- `CAP <- c[31:0]`, two's complement (R32, R82). -/
def State.setCap (s : State) (c : Int) : State := { s with cap := BitVec.ofInt 32 c }

end Sys2Proof.Machine
end

