-- ==== Sys2Proof/Machine/Ops.lean ====
section
/-! DEFINITION. The named operations: reading and writing the memories (20_memory.md R54, R55, R60,
R61), and the end of a perform step, with or without an error (60_exceptions.md R171, R172). -/

namespace Sys2Proof.Machine

/-- The value an address holds, if any (R43, R44). -/
def Memory.read {n : Nat} : Memory n → Nat → Option (BitVec n)
  | [], _ => none
  | (k, v) :: m, a => if a = k then some v else Memory.read m a

/-- Give an address a value, keeping the addresses strictly rising. -/
def Memory.write {n : Nat} : Memory n → Nat → BitVec n → Memory n
  | [], a, v => [(a, v)]
  | (k, w) :: m, a, v =>
    if a < k then (a, v) :: (k, w) :: m
    else if a = k then (a, v) :: m
    else (k, w) :: Memory.write m a v

/-- The canonical form: addresses strictly rising. An unlisted address holds no value, so no listed
entry says what an unlisted address says. -/
abbrev Memory.wf {n : Nat} (m : Memory n) : Prop := m.Pairwise fun p q => p.1 < q.1

/-- The key of cell (x, y): the host address `{x[15:0], y[15:0]}` as a number (R54). -/
def cellAddr (x y : Nat) : Nat := 65536 * x + y

/-- `GridRead(P, x, y)`; `none` is UNINIT_READ (R12, R60). -/
def gridRead (g : Memory 24) (x y : Nat) : Option Pixel := Memory.read g (cellAddr x y)

/-- `GridWrite(P, x, y, v)` (R12). -/
def gridWrite (g : Memory 24) (x y : Nat) (v : Pixel) : Memory 24 :=
  Memory.write g (cellAddr x y) v

/-- `BufRead(PIN, a)`; `none` is UNINIT_READ (R12, R60). -/
def bufRead (m : Memory 8) (a : Nat) : Option Byte := Memory.read m a

/-- `BufWrite(POUT, j, D[j])` for the bytes of a list, from address `a` up (R12). -/
def bufWriteAll (m : Memory 8) (a : Nat) : List Byte → Memory 8
  | [] => m
  | v :: vs => bufWriteAll (Memory.write m a v) (a + 1) vs

/-- The cells [0, W) x [0, H), x outer and y inner (R132). -/
def cellsOf (d : Dims) : List (Nat × Nat) :=
  (List.range d.w).flatMap fun x => (List.range d.h).map fun y => (x, y)

/-- The end of a perform step with an error code: the four fields of STATUS (R171). -/
def State.finish (s : State) (code : BitVec 4) : State :=
  { s with status := s.status.finish code }

/-- A command that succeeds: the perform step ends with ERR = 0 (R171). -/
def succeed (s : State) : Host.Outcome State Fault Refusal := .next (s.finish 0)

/-- `raise E` (R172): the writes made before it stand in `s`, no statement after it runs, and the
perform step ends with ERR = code(E). CORE saves nothing else on an error and goes nowhere
(R181, R182). -/
def raiseError (e : Err) (s : State) : Host.Outcome State Fault Refusal := .next (s.finish e.code)

/-- A read that finds no value ends the model (R60, R180). -/
def uninitRead : Host.Outcome State Fault Refusal := .fault .uninitRead

end Sys2Proof.Machine
end

