-- ==== Sys2Proof/Machine/Capacity.lean ====
section
/-! DEFINITION. The capacity calculator (40_capacity.md): `cap`, `fits` and CAPACITY. -/

namespace Sys2Proof.Machine

/-- `cap(W, H) = (3 * W * H) div 8 - 4`, in exact integers (R100). -/
def capacity (d : Dims) : Int := ((3 * d.w * d.h / 8 : Nat) : Int) - 4

/-- `fits(L, W, H)`: integer comparison (R101). -/
abbrev fits (len : Nat) (d : Dims) : Prop := (len : Int) ≤ capacity d

/-- CAPACITY (R104). -/
def execCapacity (s : State) : Host.Outcome State Fault Refusal :=
  if ¬ s.validDims s.orgDims then raiseError .invalidInput s
  else if ¬ fits s.lenNat s.orgDims then
    raiseError .capacityExceeded (s.setCap (capacity s.orgDims))
  else succeed (s.setCap (capacity s.orgDims))

end Sys2Proof.Machine
end

