-- ==== Sys2Proof/Machine/BitPlanner.lean ====
section
/-! DEFINITION. The bit planner (41_bit_planner.md): the coordinate enumerator `coord`, the framer
`frameBit`, their pairing `mapBit`, and COORD, FRAMEBIT and MAP. -/

namespace Sys2Proof.Machine

/-- A coordinate (c, x, y) (R13). -/
structure Coord where
  c : Channel
  x : Nat
  y : Nat
  deriving DecidableEq, Repr

/-- `coord(W, H, i)` of R110, for i in [0, 3WH). -/
def coord (d : Dims) (i : Nat) : Coord :=
  { c := channelOfCode (i / (d.w * d.h))
    x := i % (d.w * d.h) / d.h
    y := i % (d.w * d.h) % d.h }

/-- `frameByte(L, j)` of R113; `none` is UNINIT_READ of a payload byte. -/
def frameByte (len : Word) (pin : Memory 8) : Nat → Option Byte
  | 0 => some (len.extractLsb' 24 8)
  | 1 => some (len.extractLsb' 16 8)
  | 2 => some (len.extractLsb' 8 8)
  | 3 => some (len.extractLsb' 0 8)
  | j + 4 => bufRead pin j

/-- `frameBit(L, k) = (frameByte(L, k div 8) AND BITMASK[k mod 8]) != 0` (R114). -/
def frameBit (len : Word) (pin : Memory 8) (k : Nat) : Option Bool :=
  (frameByte len pin (k / 8)).map fun f => f &&& bitMask (k % 8) != 0

/-- `mapBit(W, H, L, k) = (coord(W, H, k), frameBit(L, k))` (R116). -/
def mapBit (d : Dims) (len : Word) (pin : Memory 8) (k : Nat) : Option (Coord × Bool) :=
  (frameBit len pin k).map fun b => (coord d k, b)

/-- The number of bits of the frame: 32 + 8L (R84, R115). -/
def frameBits (len : Nat) : Nat := 32 + 8 * len

/-- RES_XY and RES_MISC.CH take a coordinate (R82). -/
def State.setResCoord (s : State) (p : Coord) : State := (s.setResXY p.x p.y).setResCh p.c

/-- COORD (R117). -/
def execCoord (s : State) : Host.Outcome State Fault Refusal :=
  if ¬ s.validDims s.orgDims then raiseError .invalidInput s
  else if 3 * s.orgDims.w * s.orgDims.h ≤ s.idxNat then raiseError .invalidInput s
  else succeed (s.setResCoord (coord s.orgDims s.idxNat))

/-- FRAMEBIT (R118). -/
def execFramebit (s : State) : Host.Outcome State Fault Refusal :=
  if frameBits s.lenNat ≤ s.idxNat then raiseError .invalidInput s
  else if 32 ≤ s.idxNat ∧ s.pbufBytes ≤ (s.idxNat - 32) / 8 then raiseError .invalidInput s
  else
    match frameBit s.len s.pin s.idxNat with
    | none => uninitRead
    | some b => succeed (s.setResBit b)

/-- MAP (R119). -/
def execMap (s : State) : Host.Outcome State Fault Refusal :=
  if ¬ s.validDims s.orgDims then raiseError .invalidInput s
  else if ¬ fits s.lenNat s.orgDims then
    raiseError .capacityExceeded (s.setCap (capacity s.orgDims))
  else if frameBits s.lenNat ≤ s.idxNat then
    raiseError .invalidInput (s.setCap (capacity s.orgDims))
  else
    match mapBit s.orgDims s.len s.pin s.idxNat with
    | none => uninitRead
    | some (p, b) => succeed (((s.setCap (capacity s.orgDims)).setResCoord p).setResBit b)

end Sys2Proof.Machine
end

