-- ==== Sys2Proof/Machine/Decoder.lean ====
section
/-! DEFINITION. The bit read unit and the Decoder (43_decoder.md): `readBit`, READBIT.R, READBIT.G,
READBIT.B, byte assembly and DECODE. -/

namespace Sys2Proof.Machine

/-- `readBit(a, b, c) = ((a AND DEC_MASK[c]) != (b AND DEC_MASK[c]))` (R150). -/
def readBit (a b : Pixel) (c : Channel) : Bool := a &&& decMask c != b &&& decMask c

/-- `readBit` of one cell of two grids; `none` is UNINIT_READ (R151, R153). -/
def readCellBit (a b : Memory 24) (c : Channel) (x y : Nat) : Option Bool :=
  match gridRead a x y, gridRead b x y with
  | some p, some q => some (readBit p q c)
  | _, _ => none

/-- The rule of READBIT.c (R151). -/
def readbitCommand (c : Channel) (s : State) : Host.Outcome State Fault Refusal :=
  if ¬ s.validDims s.orgDims then raiseError .invalidInput s
  else if s.modDims ≠ s.orgDims then raiseError .invalidInput s
  else if s.orgDims.w ≤ s.posX ∨ s.orgDims.h ≤ s.posY then raiseError .invalidInput s
  else
    match readCellBit s.gridA s.gridB c s.posX s.posY with
    | none => uninitRead
    | some b => succeed (s.setResBit b)

/-- READBIT.R (R151). -/
def execReadbitR (s : State) : Host.Outcome State Fault Refusal := readbitCommand .r s

/-- READBIT.G (R151). -/
def execReadbitG (s : State) : Host.Outcome State Fault Refusal := readbitCommand .g s

/-- READBIT.B (R151). -/
def execReadbitB (s : State) : Host.Outcome State Fault Refusal := readbitCommand .b s

/-- NB, the number of whole recovered bytes (R152). -/
def recoveredBytes (d : Dims) : Nat := 3 * d.w * d.h / 8

/-- `recBit(i)` of R153. -/
def recBit (d : Dims) (a b : Memory 24) (i : Nat) : Option Bool :=
  readCellBit a b (coord d i).c (coord d i).x (coord d i).y

/-- One term of the OR of `recByte`: `recBit(8 * j + b) ? BITMASK[b] : 0` (R153). -/
def recByteStep (d : Dims) (ga gb : Memory 24) (j : Nat) (acc : Byte) (b : Nat) : Option Byte :=
  (recBit d ga gb (8 * j + b)).map fun t => acc ||| if t then bitMask b else 0

/-- `recByte(j)` of R153: the OR over b in [0, 8). -/
def recByte (d : Dims) (ga gb : Memory 24) (j : Nat) : Option Byte :=
  (List.range 8).foldlM (recByteStep d ga gb j) 0

/-- The bytes D[0], ..., D[n - 1] (R154). -/
def recBytes (d : Dims) (ga gb : Memory 24) (n : Nat) : Option (List Byte) :=
  (List.range n).mapM (recByte d ga gb)

/-- A big-endian number of listed bytes, most significant first: `{D[0], D[1], D[2], D[3]}` (R58,
R154). -/
def bigEndian (ds : List Byte) : Word :=
  ds.foldl (fun acc d => acc <<< 8 ||| d.setWidth 32) 0

/-- DECODE (R154 to R159). -/
def execDecode (s : State) : Host.Outcome State Fault Refusal :=
  if ¬ s.validDims s.orgDims then raiseError .invalidInput s
  else if s.modDims ≠ s.orgDims then raiseError .invalidInput s
  else if recoveredBytes s.orgDims < 4 then raiseError .truncatedPayload { s with outLen := 0 }
  else
    match recBytes s.orgDims s.gridA s.gridB (recoveredBytes s.orgDims) with
    | none => uninitRead
    | some ds =>
      let len := bigEndian (ds.take 4)
      if recoveredBytes s.orgDims - 4 < len.toNat then
        raiseError .truncatedPayload { s with outLen := len }
      else
        succeed { s with pout := bufWriteAll s.pout 0 ((ds.drop 4).take len.toNat), outLen := len }

end Sys2Proof.Machine
end

