-- ==== Sys2Proof/Machine/Encoder.lean ====
section
/-! DEFINITION. The bit toggle unit and the Encoder (42_encoder.md): `toggle`, TOGGLE.R, TOGGLE.G,
TOGGLE.B and ENCODE. -/

namespace Sys2Proof.Machine

/-- `toggle(p, c) = p XOR ENC_MASK[c]` (R130). -/
def toggle (p : Pixel) (c : Channel) : Pixel := p ^^^ encMask c

/-- One toggle of a cell of a grid: `GridWrite(B, x, y, toggle(GridRead(B, x, y), c))`; `none` is
UNINIT_READ (R131, R132). -/
def toggleCell (g : Memory 24) (c : Channel) (x y : Nat) : Option (Memory 24) :=
  (gridRead g x y).map fun p => gridWrite g x y (toggle p c)

/-- The rule of TOGGLE.c (R131). -/
def toggleCommand (c : Channel) (s : State) : Host.Outcome State Fault Refusal :=
  if ¬ s.validDims s.modDims then raiseError .invalidInput s
  else if s.modDims.w ≤ s.posX ∨ s.modDims.h ≤ s.posY then raiseError .invalidInput s
  else
    match toggleCell s.gridB c s.posX s.posY with
    | none => uninitRead
    | some g => succeed { s with gridB := g }

/-- TOGGLE.R (R131). -/
def execToggleR (s : State) : Host.Outcome State Fault Refusal := toggleCommand .r s

/-- TOGGLE.G (R131). -/
def execToggleG (s : State) : Host.Outcome State Fault Refusal := toggleCommand .g s

/-- TOGGLE.B (R131). -/
def execToggleB (s : State) : Host.Outcome State Fault Refusal := toggleCommand .b s

/-- Copy one cell of plane `a` into plane `b` (R137). -/
def copyCell (a b : Memory 24) (xy : Nat × Nat) : Option (Memory 24) :=
  (gridRead a xy.1 xy.2).map fun v => gridWrite b xy.1 xy.2 v

/-- Copy listed cells of plane `a` into plane `b`, in order (R132, R137). -/
def copyCells (a : Memory 24) (cells : List (Nat × Nat)) (b : Memory 24) : Option (Memory 24) :=
  cells.foldlM (copyCell a) b

/-- One iteration of ENCODE's last loop: toggle at coordinate k if frame bit k is 1 (R132, R134). -/
def embedBit (d : Dims) (len : Word) (pin : Memory 8) (b : Memory 24) (k : Nat) :
    Option (Memory 24) :=
  match mapBit d len pin k with
  | none => none
  | some (p, bit) => if bit then toggleCell b p.c p.x p.y else some b

/-- ENCODE's last loop over listed frame indices (R132). -/
def embedBits (d : Dims) (len : Word) (pin : Memory 8) (ks : List Nat) (b : Memory 24) :
    Option (Memory 24) :=
  ks.foldlM (embedBit d len pin) b

/-- The plane B a successful ENCODE leaves: the copy, then the toggles (R132); `none` is
UNINIT_READ. -/
def encodedGrid (d : Dims) (len : Word) (pin : Memory 8) (a b : Memory 24) : Option (Memory 24) :=
  match copyCells a (cellsOf d) b with
  | none => none
  | some b' => embedBits d len pin (List.range (frameBits len.toNat)) b'

/-- ENCODE (R132). -/
def execEncode (s : State) : Host.Outcome State Fault Refusal :=
  if ¬ s.validDims s.orgDims then raiseError .invalidInput s
  else if ¬ fits s.lenNat s.orgDims then
    raiseError .capacityExceeded (s.setCap (capacity s.orgDims))
  else
    match encodedGrid s.orgDims s.len s.pin s.gridA s.gridB with
    | none => uninitRead
    | some g => succeed { s.setCap (capacity s.orgDims) with gridB := g, modDim := s.orgDim }

end Sys2Proof.Machine
end

