-- ==== Sys2Proof/Machine/Dispatch.lean ====
section
/-! DEFINITION. The meaning of each command (30_encoding.md R76): one arm per constructor. -/

namespace Sys2Proof.Machine

def exec (i : Instr) (s : State) : Host.Outcome State Fault Refusal :=
  match i with
  | .capacity => Sys2Proof.Machine.execCapacity s
  | .coord => Sys2Proof.Machine.execCoord s
  | .framebit => Sys2Proof.Machine.execFramebit s
  | .map => Sys2Proof.Machine.execMap s
  | .toggleR => Sys2Proof.Machine.execToggleR s
  | .toggleG => Sys2Proof.Machine.execToggleG s
  | .toggleB => Sys2Proof.Machine.execToggleB s
  | .encode => Sys2Proof.Machine.execEncode s
  | .readbitR => Sys2Proof.Machine.execReadbitR s
  | .readbitG => Sys2Proof.Machine.execReadbitG s
  | .readbitB => Sys2Proof.Machine.execReadbitB s
  | .decode => Sys2Proof.Machine.execDecode s

end Sys2Proof.Machine
end

