-- ==== Sys2Proof/Machine/HostPort.lean ====
section
/-! DEFINITION. Host transactions (20_memory.md R50 to R57, R62) and the issue of a command
(60_exceptions.md R170). -/

namespace Sys2Proof.Machine

/-- The issue of a command (R170): CMD <- v, BUSY <- 1, DONE <- 0; ERR and STICKY unchanged. The
word is not decoded here. -/
def State.issue (s : State) (v : Word) : State :=
  { s with cmd := v, status := s.status.issue }

/-- The value of the register at a REG offset (R22); an offset with no register reads 0 (R52). -/
def State.regRead (s : State) : Nat → Word
  | 0x00 => s.cmd
  | 0x04 => s.status.word
  | 0x08 => s.orgDim
  | 0x0C => s.modDim
  | 0x10 => s.len
  | 0x14 => s.cap
  | 0x18 => s.outLen
  | 0x1C => s.idx
  | 0x20 => s.pxy
  | 0x24 => s.resXY
  | 0x28 => s.resMisc.word
  | 0x2C => s.geomMax
  | 0x30 => s.pbufSize
  | _ => 0

/-- A host write to the register at a REG offset (R53); a read-only register and an offset with no
register ignore it (R52, R53). -/
def State.regWrite (s : State) (off : Nat) (v : Word) : State :=
  match off with
  | 0x00 => s.issue v
  | 0x04 => { s with status := s.status.hostWrite v }
  | 0x08 => { s with orgDim := v }
  | 0x0C => { s with modDim := v }
  | 0x10 => { s with len := v }
  | 0x1C => { s with idx := v }
  | 0x20 => { s with pxy := v }
  | _ => s

/-- A REG address in range: at most 0xFC and a multiple of 4 (R51). -/
abbrev regInRange (addr : Word) : Prop := addr.toNat ≤ 0xFC ∧ addr.toNat % 4 = 0

/-- A GRID address in range: x < GRID_MAX_W and y < GRID_MAX_H (R54). -/
abbrev State.gridInRange (s : State) (addr : Word) : Prop :=
  (hi16 addr).toNat < s.gridMaxW ∧ (lo16 addr).toNat < s.gridMaxH

/-- A PIN or POUT address in range: a < PBUF_BYTES (R55). -/
abbrev State.bufInRange (s : State) (addr : Word) : Prop := addr.toNat < s.pbufBytes

/-- A transaction's address is in its space's range (R51, R54, R55, R56). -/
def State.inRange (s : State) : Transaction → Bool
  | .readReg a => decide (regInRange a)
  | .writeReg a _ => decide (regInRange a)
  | .readGrid _ a => decide (s.gridInRange a)
  | .writeGrid _ a _ => decide (s.gridInRange a)
  | .readPin a => decide (s.bufInRange a)
  | .writePin a _ => decide (s.bufInRange a)
  | .readPout a => decide (s.bufInRange a)
  | .writePout a _ => decide (s.bufInRange a)

/-- The plane a GRID space holds (R50). -/
def State.plane (s : State) : Plane → Memory 24
  | .a => s.gridA
  | .b => s.gridB

/-- The state with one plane replaced. -/
def State.setPlane (s : State) (p : Plane) (g : Memory 24) : State :=
  match p with
  | .a => { s with gridA := g }
  | .b => { s with gridB := g }

/-- The host gets data back (R215; log entry 8). -/
def State.answer (s : State) (r : Reply) : State := { s with reply := some r }

/-- The host gets nothing back from a write (R215). -/
def State.noAnswer (s : State) : State := { s with reply := none }

/-- A read returns the value, or is UNINIT_READ where there is none (R60). -/
def readReply (s : State) (v : Option Reply) : Host.Outcome State Fault Refusal :=
  match v with
  | none => uninitRead
  | some r => .next (s.answer r)

/-- A transaction at an in-range address while BUSY = 0 (R52 to R55, R62). -/
def definedTransact (t : Transaction) (s : State) : Host.Outcome State Fault Refusal :=
  match t with
  | .readReg a => .next (s.answer (.word (s.regRead a.toNat)))
  | .writeReg a v => .next (s.regWrite a.toNat v).noAnswer
  | .readGrid p a =>
    readReply s ((gridRead (s.plane p) (hi16 a).toNat (lo16 a).toNat).map fun v =>
      .word (v.setWidth 32))
  | .writeGrid p a d =>
    .next (s.setPlane p (gridWrite (s.plane p) (hi16 a).toNat (lo16 a).toNat
      (d.extractLsb' 0 24))).noAnswer
  | .readPin a => readReply s ((bufRead s.pin a.toNat).map .byte)
  | .writePin a v => .next { s with pin := Memory.write s.pin a.toNat v }.noAnswer
  | .readPout a => readReply s ((bufRead s.pout a.toNat).map .byte)
  | .writePout _ _ => .next s.noAnswer

/-- The read of STATUS, the one transaction with a defined effect while BUSY = 1 (R57). -/
abbrev Transaction.isStatusRead (t : Transaction) : Prop := t = .readReg 0x04

/-- A host transaction. While BUSY = 1 everything but a read of STATUS is HOST_BUSY (R57), its
address unlooked at (log entry 6); an out-of-range address is HOST_RANGE (R56). -/
def transact (t : Transaction) (s : State) : Host.Outcome State Fault Refusal :=
  if s.status.busy = true ∧ ¬ t.isStatusRead then .fault .hostBusy
  else if s.inRange t = false then .fault .hostRange
  else definedTransact t s

end Sys2Proof.Machine
end

