-- ==== Sys2Proof/Machine/Perform.lean ====
section
/-! DEFINITION. The perform step (60_exceptions.md R171), a turn of a run (70_reset_and_hazards.md
R213), and the placing of a command word as an issued command. -/

namespace Sys2Proof.Machine

/-- The perform step (R171): decode CMD, then the command's rule, or ILLEGAL_COMMAND (R174). -/
def perform (s : State) : Host.Outcome State Fault Refusal :=
  match decode s.cmd with
  | some i => exec i s
  | none => raiseError .illegalCommand s

/-- The sequencer's turn: the perform step while BUSY = 1, and no step while BUSY = 0 (R171; log
entry 4). -/
def sequencerTurn (s : State) : Host.Outcome State Fault Refusal :=
  if s.status.busy then perform s else .next s

/-- The reset input (R200, R201): everything as after reset, whatever was being performed; the
host's remaining moves are the host's and stay. -/
def resetInput (s : State) : State :=
  { State.resetOf s.geomMax s.pbufSize with turns := s.turns }

/-- One move of a run (R213). -/
def runTurn (t : Turn) (s : State) : Host.Outcome State Fault Refusal :=
  match t with
  | .host t => transact t s
  | .sequencer => sequencerTurn s
  | .reset => .next (resetInput s)

/-- A run stops at its first model fault (R180); before that the next turn is taken, and when no
turn is left the sequencer performs a pending command (weak fairness, R171, R211) or CORE is idle
(R190). -/
def advanceRun (s : State) : Host.Outcome State Fault Refusal :=
  match s.faults with
  | f :: _ => .fault f
  | [] =>
    match s.turns with
    | [] => sequencerTurn s
    | t :: ts => runTurn t { s with turns := ts }

/-- The state in which `w` has been issued and the sequencer moves next (R170; log entry 10). -/
def State.placeCommand (s : State) (w : Word) : State :=
  { s.issue w with faults := [], turns := .sequencer :: s.turns }

end Sys2Proof.Machine
end

