-- ==== Sys2Proof/Machine/Step.lean ====
section
/-! DEFINITION. One step of the machine (70_reset_and_hazards.md R213): the next turn of the run. -/

namespace Sys2Proof.Machine

/-- One step: the next turn of the run. -/
def step (s : State) : Host.Outcome State Fault Refusal := advanceRun s

/-- `s` with a command word issued, so that the very next step performs it. CORE fetches nothing
(10_state.md R21, R71): a program is what the host writes to CMD, and this is that write (R170).
The bits above `nbits` are 0. Log entry 10. -/
def State.withFetchWord (s : State) (nbits w : Nat) : State :=
  s.placeCommand (BitVec.ofNat 32 (w % 2 ^ nbits))

end Sys2Proof.Machine
end

