-- ==== Sys2Proof/Machine/Script.lean ====
section
/-! DEFINITION. The host-script statements and pseudo-statements (30_encoding.md R87 to R89): the
turns each one stands for. The host's control flow is outside CORE (R121); a `wait` is given with
the number of STATUS reads that still find BUSY = 1 (93_implementation_defined.md U23; log entry
18). -/

namespace Sys2Proof.Machine

/-- The register names of a script (R22, R87). -/
inductive Reg where
  | cmd
  | status
  | orgDim
  | modDim
  | len
  | cap
  | outLen
  | idx
  | pxy
  | resXY
  | resMisc
  | geomMax
  | pbufSize
  deriving DecidableEq, Repr

/-- The register map's offsets (R22). -/
def Reg.offset : Reg → Word
  | .cmd => 0x00
  | .status => 0x04
  | .orgDim => 0x08
  | .modDim => 0x0C
  | .len => 0x10
  | .cap => 0x14
  | .outLen => 0x18
  | .idx => 0x1C
  | .pxy => 0x20
  | .resXY => 0x24
  | .resMisc => 0x28
  | .geomMax => 0x2C
  | .pbufSize => 0x30

/-- A statement of R87 or a pseudo-statement of R89. -/
inductive Stmt where
  /-- `wr REG, v` -/
  | wr (reg : Reg) (v : Word)
  /-- `rd REG` -/
  | rd (reg : Reg)
  /-- `wrpix A, x, y, v` and `wrpix B, x, y, v` -/
  | wrpix (p : Plane) (x y : BitVec 16) (v : Pixel)
  /-- `rdpix A, x, y` and `rdpix B, x, y` -/
  | rdpix (p : Plane) (x y : BitVec 16)
  /-- `wrbuf i, v` -/
  | wrbuf (i : Word) (v : Byte)
  /-- `rdbuf o` -/
  | rdbuf (o : Word)
  /-- `cmd M` -/
  | cmd (m : Instr)
  /-- `wait`, with the number of reads that find BUSY = 1 -/
  | wait (polls : Nat)
  /-- `run M`: `cmd M` then `wait` -/
  | run (m : Instr) (polls : Nat)
  /-- `dims ORG, w, h` -/
  | dimsOrg (w h : BitVec 16)
  /-- `dims MOD, w, h` -/
  | dimsMod (w h : BitVec 16)
  /-- `pos x, y` -/
  | pos (x y : BitVec 16)
  /-- `clrsticky` -/
  | clrsticky
  deriving DecidableEq, Repr

/-- A host write to a register. -/
def writeTurn (reg : Reg) (v : Word) : Turn := .host (.writeReg reg.offset v)

/-- A host read of a register. -/
def readTurn (reg : Reg) : Turn := .host (.readReg reg.offset)

/-- `wait` (R89): reads of STATUS that find BUSY = 1, the sequencer's turn, and the read that finds
BUSY = 0. -/
def waitTurns (polls : Nat) : List Turn :=
  List.replicate polls (readTurn .status) ++ [.sequencer, readTurn .status]

/-- The turns a statement stands for (R87 to R89). DESIGN CHOICE (log entry 21): a `cmd M` brings no
turn of the sequencer, so its perform step falls in the next `wait`, or after the script's end.
R66 and R211 leave the point open. -/
def Stmt.turns : Stmt → List Turn
  | .wr reg v => [writeTurn reg v]
  | .rd reg => [readTurn reg]
  | .wrpix p x y v => [.host (.writeGrid p (pair16 x y) (v.setWidth 32))]
  | .rdpix p x y => [.host (.readGrid p (pair16 x y))]
  | .wrbuf i v => [.host (.writePin i v)]
  | .rdbuf o => [.host (.readPout o)]
  | .cmd m => [writeTurn .cmd (encode m)]
  | .wait polls => waitTurns polls
  | .run m polls => writeTurn .cmd (encode m) :: waitTurns polls
  | .dimsOrg w h => [writeTurn .orgDim (pair16 w h)]
  | .dimsMod w h => [writeTurn .modDim (pair16 w h)]
  | .pos x y => [writeTurn .pxy (pair16 x y)]
  | .clrsticky => [writeTurn .status 0x100]

/-- The turns of a script, statement by statement: one of the interleavings R66 allows, the one of
log entries 18 and 21 (DESIGN CHOICE). Another one is another list of turns. -/
def scriptTurns (script : List Stmt) : List Turn := script.flatMap Stmt.turns

end Sys2Proof.Machine
end

