-- ==== Sys2Proof/Safety.lean ====
section
/-! DEFINITION. Runs with their record of model faults (10_state.md R47, 60_exceptions.md R180), the
successful end of a run (70_reset_and_hazards.md R214), and the invariant of CORE's states. -/

namespace Sys2Proof.Machine

/-- A model fault is added to the record (R47). -/
def State.recordFault (s : State) (f : Fault) : State := { s with faults := s.faults ++ [f] }

/-- One move of a run with its record: a step, or the fault it met recorded where the run stops
(R180). A run that has stopped stays (R47). -/
def advance (s : State) : State :=
  if s.faults ≠ [] then s
  else
    match step s with
    | .next t => t
    | .fault f => s.recordFault f
    | .refused _ => s

/-- `n` moves of a run (R213). -/
def run : Nat → State → State
  | 0, s => s
  | n + 1, s => run n (advance s)

/-- The host has no further transaction (R214). DESIGN CHOICE (log entry 22): nor a reset still to
drive. R214 names only transactions, R213 counts a reset apart from them, and R215 lists it among
what the host sends; the spec leaves open whether one still to come holds up the end. -/
def State.hostDone (s : State) : Bool := s.turns.all fun t => t == .sequencer

/-- The successful end of a run (R214), with a reset still to come holding it up (log entry 22). It
does not say that the last command succeeded. -/
abbrev State.successfulEnd (s : State) : Prop :=
  s.hostDone = true ∧ s.status.busy = false ∧ s.faults = []

/-- Every address of a plane is a cell of the build (R43). -/
abbrev State.gridFits (s : State) (g : Memory 24) : Prop :=
  ∀ c ∈ g, c.1 / 65536 < s.gridMaxW ∧ c.1 % 65536 < s.gridMaxH

/-- Every address of a buffer is a byte of the build (R44). -/
abbrev State.bufFits (s : State) (m : Memory 8) : Prop := ∀ c ∈ m, c.1 < s.pbufBytes

/-- CORE before its first command since reset: every register only a command writes is at its
reset value, and so is POUT (R26, R49, R200). -/
abbrev State.fresh (s : State) : Prop :=
  s.cmd = 0 ∧ s.status.err = 0 ∧ s.status.sticky = false ∧ s.cap = 0 ∧ s.outLen = 0 ∧
    s.resXY = 0 ∧ s.resMisc = { ch := 0, bit := false } ∧ s.pout = []

/-- What holds in every state of CORE. -/
structure State.Inv (s : State) : Prop where
  /-- The parameters are legal (R204). -/
  params : s.params.legal
  /-- Plane A is in canonical form, within the build (R43). -/
  gridA : Memory.wf s.gridA ∧ s.gridFits s.gridA
  /-- Plane B is in canonical form, within the build (R43). -/
  gridB : Memory.wf s.gridB ∧ s.gridFits s.gridB
  /-- PIN is in canonical form, within the build (R44). -/
  pin : Memory.wf s.pin ∧ s.bufFits s.pin
  /-- POUT is in canonical form, within the build (R44). -/
  pout : Memory.wf s.pout ∧ s.bufFits s.pout
  /-- ERR is 0 to 4 (R27, R173). -/
  err : s.status.err.toNat ≤ 4
  /-- BUSY and DONE are never both 1 (R25, R26). -/
  busyDone : ¬ (s.status.busy = true ∧ s.status.done = true)
  /-- BUSY = 0 with DONE = 0 only before the first command since reset (R26). -/
  idle : s.status.busy = false → s.status.done = false → s.fresh
  /-- RES_MISC.CH is never 3 (R37). -/
  ch : s.resMisc.ch ≠ 3
  /-- CAP, as a signed number, lies in [-4, 1610563580] (R32). -/
  cap : -4 ≤ s.cap.toInt ∧ s.cap.toInt ≤ 1610563580

end Sys2Proof.Machine
end

