-- ==== Sys2Proof/Certificates/Slice0/Obligations.lean ====
section
/-! DEFINITION. The statements for the provers, from the numbered rules of spec/. The first part is
their vocabulary: the end of a command as R171 words it, and the conditions R56 and R80 list, in
plain arithmetic on the words, apart from the model's own functions. -/

namespace Sys2Proof.Machine

/-- `s` after a perform step that ends with code 0: BUSY 0, DONE 1, ERR 0, STICKY kept (R171). -/
def State.endedOk (s : State) : State :=
  { s with status := { busy := false, done := true, err := 0, sticky := s.status.sticky } }

/-- `s` after a perform step that ends with a code that is not 0: STICKY 1 (R171). -/
def State.endedErr (s : State) (code : BitVec 4) : State :=
  { s with status := { busy := false, done := true, err := code, sticky := true } }

/-- A run that has met no model fault and whose next turn is `t`. -/
abbrev State.nextTurn (s : State) (t : Turn) (ts : List Turn) : Prop :=
  s.faults = [] ∧ s.turns = t :: ts

/-- A run that has met no model fault and whose next move is the sequencer's: its turn stands next,
or no turn is left; `ts` is what stays. -/
abbrev State.sequencerNext (s : State) (ts : List Turn) : Prop :=
  s.faults = [] ∧ (s.turns = .sequencer :: ts ∨ (s.turns = [] ∧ ts = []))

/-- The 12 legal words of R80's table, each with its command. -/
def legalWords : List (Word × Instr) :=
  [(0x00000001, .capacity), (0x00000002, .coord), (0x00000003, .framebit), (0x00000004, .map),
   (0x00000006, .encode), (0x00000008, .decode), (0x00000005, .toggleR), (0x00000015, .toggleG),
   (0x00000025, .toggleB), (0x00000007, .readbitR), (0x00000017, .readbitG),
   (0x00000027, .readbitB)]

/-- The causes of ILLEGAL_COMMAND that R174 lists, on the word as a number. -/
def illegalWord (w : Nat) : Prop :=
  w % 16 = 0 ∨ 9 ≤ w % 16 ∨ w / 64 ≠ 0 ∨
    (w % 16 ≠ 5 ∧ w % 16 ≠ 7 ∧ w / 16 % 4 ≠ 0) ∨
    ((w % 16 = 5 ∨ w % 16 = 7) ∧ w / 16 % 4 = 3)

/-- An out-of-range address (R51, R54, R55), on the address as a number. -/
def outOfRange (s : State) : Transaction → Prop
  | .readReg a => 0xFC < a.toNat ∨ a.toNat % 4 ≠ 0
  | .writeReg a _ => 0xFC < a.toNat ∨ a.toNat % 4 ≠ 0
  | .readGrid _ a => s.gridMaxW ≤ a.toNat / 65536 ∨ s.gridMaxH ≤ a.toNat % 65536
  | .writeGrid _ a _ => s.gridMaxW ≤ a.toNat / 65536 ∨ s.gridMaxH ≤ a.toNat % 65536
  | .readPin a => s.pbufBytes ≤ a.toNat
  | .writePin a _ => s.pbufBytes ≤ a.toNat
  | .readPout a => s.pbufBytes ≤ a.toNat
  | .writePout a _ => s.pbufBytes ≤ a.toNat

/-- A transaction that reads. -/
def isRead : Transaction → Prop
  | .readReg _ | .readGrid _ _ | .readPin _ | .readPout _ => True
  | .writeReg _ _ | .writeGrid _ _ _ | .writePin _ _ | .writePout _ _ => False

/-- Every cell of [0, W) x [0, H) of a plane holds a value. -/
def cellsHold (g : Memory 24) (d : Dims) : Prop :=
  ∀ x y, x < d.w → y < d.h → (gridRead g x y).isSome = true

/-- Every byte of [0, n) of a buffer holds a value. -/
def bytesHold (m : Memory 8) (n : Nat) : Prop := ∀ j, j < n → (bufRead m j).isSome = true

/-- Plane B's key `a` is outside [0, W) x [0, H). -/
def outsideGrid (d : Dims) (a : Nat) : Prop :=
  ∀ x y, x < d.w → y < d.h → a ≠ cellAddr x y

/-- The host and the sequencer in the order of `wait` and `run DECODE` (R89): reads of STATUS, the
perform step, the read that ends the wait, the issue of DECODE, and its wait.
The turns of a `wait` are the model's choice, log entry 18. -/
def encodeThenDecode (m n : Nat) : List Turn :=
  waitTurns m ++ (writeTurn .cmd 0x00000008 :: waitTurns n)

/-- The channel of TOGGLE.c and READBIT.c, with the command (R88). -/
def toggleOf : Channel → Instr
  | .r => .toggleR
  | .g => .toggleG
  | .b => .toggleB

/-- READBIT.c for a channel (R88). -/
def readbitOf : Channel → Instr
  | .r => .readbitR
  | .g => .readbitG
  | .b => .readbitB

end Sys2Proof.Machine

open Sys2Proof Sys2Proof.Machine

/-! ### Encoding -/

/-- A few words decode as 95_test_vectors.md section 2.9 says. -/
def Obligations.SampleWordsDecode : Prop :=
  decode 0x00000001 = some .capacity ∧ decode 0x00000004 = some .map ∧
    decode 0x00000015 = some .toggleG ∧ decode 0x00000006 = some .encode ∧
    decode 0x00000027 = some .readbitB ∧ decode 0x00000008 = some .decode ∧
    decode 0x00000000 = none ∧ decode 0x00000011 = none ∧ decode 0x00000035 = none ∧
    decode 0x00000040 = none ∧ decode 0x80000006 = none ∧ decode 0x00000009 = none ∧
    decode 0x0000000F = none

/-- R80: the 12 legal words are exactly those of the table. -/
def Obligations.DecodeExactlyLegalWords : Prop :=
  ∀ w i, decode w = some i ↔ (w, i) ∈ legalWords

/-- Decoding and encoding are inverse in both directions. -/
def Obligations.DecodeEncodeInverse : Prop :=
  (∀ i, decode (encode i) = some i) ∧ ∀ w i, decode w = some i → encode i = w

/-- The words that decode are those whose fields are legal (R76 to R78), in arithmetic. -/
def Obligations.IllegalWordsByField : Prop :=
  ∀ w : Word, decode w = none ↔ illegalWord w.toNat

/-! ### The life of a command -/

/-- A step at which the sequencer moves runs the decoded command on the state past that turn.
The order of moves is the model's choice, log entry 3. -/
def Obligations.StepRunsDecodedCommand : Prop :=
  ∀ s ts i, s.sequencerNext ts → s.status.busy = true → decode s.cmd = some i →
    step s = exec i { s with turns := ts }

/-- R170: what the issue does, and a write to CMD while BUSY = 1.
The order of moves and the reply are the model's choices, log entries 3 and 8. -/
def Obligations.IssueOfCommand : Prop :=
  ∀ s ts v, s.nextTurn (.host (.writeReg 0x00 v)) ts →
    (s.status.busy = false →
      step s = .next { s with turns := ts, cmd := v, reply := none,
                              status := { s.status with busy := true, done := false } }) ∧
    (s.status.busy = true → step s = .fault .hostBusy)

/-- R174: an illegal word ends with ILLEGAL_COMMAND and writes STATUS only.
The order of moves is the model's choice, log entry 3. -/
def Obligations.IllegalCommandEnds : Prop :=
  ∀ s ts, s.sequencerNext ts → s.status.busy = true → illegalWord s.cmd.toNat →
    step s = .next (State.endedErr { s with turns := ts } 1)

/-- The end of every command (R171): the four fields of STATUS, with a code of 0 to 4. -/
def Obligations.CommandEndsStatus : Prop :=
  ∀ i s t, exec i s = .next t →
    t.status.busy = false ∧ t.status.done = true ∧ t.status.err.toNat ≤ 4 ∧
      t.status.err ≠ 1 ∧
      t.status.sticky = (s.status.sticky || t.status.err != 0)

/-- A command ends, or meets the model fault UNINIT_READ; there is no other outcome, and CAPACITY
and COORD always end. -/
def Obligations.CommandOutcomes : Prop :=
  (∀ i s, (∃ t, exec i s = .next t) ∨ exec i s = .fault .uninitRead) ∧
    ∀ s, (∃ t, exec .capacity s = .next t) ∧ ∃ t, exec .coord s = .next t

/-- R24: the layout of STATUS and the effect of a host write; and the layout of RES_MISC (R37).
The order of moves and the reply are the model's choices, log entries 3 and 8. -/
def Obligations.StatusAndResMiscLayout : Prop :=
  (∀ st : Status,
    st.word.getLsbD 0 = st.busy ∧ st.word.getLsbD 1 = st.done ∧
      (∀ k, k < 4 → st.word.getLsbD (4 + k) = st.err.getLsbD k) ∧
      st.word.getLsbD 8 = st.sticky ∧
      ∀ k, (k = 2 ∨ k = 3 ∨ 9 ≤ k) → st.word.getLsbD k = false) ∧
  (∀ s ts v, s.nextTurn (.host (.writeReg 0x04 v)) ts → s.status.busy = false →
    step s = .next { s with turns := ts, reply := none,
                            status := { s.status with sticky :=
                              (if v.getLsbD 8 then false else s.status.sticky) } }) ∧
  ∀ m : ResMisc,
    (∀ k, k < 2 → m.word.getLsbD k = m.ch.getLsbD k) ∧ m.word.getLsbD 8 = m.bit ∧
      ∀ k, ((2 ≤ k ∧ k ≤ 7) ∨ 9 ≤ k) → m.word.getLsbD k = false

/-- R28: STICKY is set by a perform step whose ERR is not 0, never cleared by the sequencer,
cleared by a host write to STATUS with bit 8 set, legal only while BUSY = 0, and by reset.
The order of moves is the model's choice, log entry 3. -/
def Obligations.StickyLife : Prop :=
  (∀ s ts t, s.sequencerNext ts → s.status.busy = true → step s = .next t →
    t.status.sticky = (s.status.sticky || t.status.err != 0)) ∧
  (∀ s ts v, s.nextTurn (.host (.writeReg 0x04 v)) ts → v.getLsbD 8 = true →
    (s.status.busy = false → ∃ t, step s = .next t ∧ t.status.sticky = false) ∧
    (s.status.busy = true → step s = .fault .hostBusy)) ∧
  ∀ s ts, s.nextTurn .reset ts → ∃ t, step s = .next t ∧ t.status.sticky = false

/-- While BUSY = 0 the sequencer's move changes nothing. R171 gives the sequencer no step then, and
R190 says that CORE holds all its state; that a sequencer turn which comes then passes is the
model's choice, log entry 4, as is the order of moves, log entry 3. -/
def Obligations.IdleHoldsState : Prop :=
  ∀ s ts, s.sequencerNext ts → s.status.busy = false → step s = .next { s with turns := ts }

/-- Polling does not hold up the pending command: after any number of STATUS reads, each answered
with BUSY = 1, the sequencer's move performs it (R171, R211).
The order of moves and the reply are the model's choices, log entries 3 and 8. -/
def Obligations.PollingReachesPerform : Prop :=
  ∀ (n : Nat) (s : State) (ts : List Turn), s.faults = [] → s.status.busy = true →
    s.turns = List.replicate n (.host (.readReg 0x04)) ++ ts →
    (ts = [] ∨ ∃ us, ts = .sequencer :: us) →
    run n s = { s with turns := ts,
                       reply := if n = 0 then s.reply else some (.word s.status.word) } ∧
      step (run n s) = perform { run n s with turns := ts.tail }

/-! ### Reset and the parameters -/

/-- R200: the state after reset, as the host would read it.
Where a build's parameters stand is the model's choice, log entry 1. -/
def Obligations.StateAfterReset : Prop :=
  ∀ p : Params, p.legal →
    (∀ off, off ≠ 0x2C → off ≠ 0x30 → (State.resetWith p).regRead off = 0) ∧
      ((State.resetWith p).regRead 0x2C).toNat = 65536 * p.gridMaxW + p.gridMaxH ∧
      ((State.resetWith p).regRead 0x30).toNat = p.pbufBytes ∧
      (∀ x y, gridRead (State.resetWith p).gridA x y = none ∧
        gridRead (State.resetWith p).gridB x y = none) ∧
      (∀ a, bufRead (State.resetWith p).pin a = none ∧ bufRead (State.resetWith p).pout a = none) ∧
      (State.resetWith p).pending = none ∧ (State.resetWith p).faults = []

/-- The reset input, also while a command is being performed (R200, R201): the state after reset of
the same build, whatever the state was; only the turns still to come are kept.
The order of moves and the turns kept are the model's
choices, log entries 3 and 14. -/
def Obligations.ResetInputAtAnyTime : Prop :=
  ∀ s ts, s.nextTurn .reset ts →
    ∃ t, step s = .next t ∧ t = { State.resetWith s.params with turns := ts } ∧
      t.geomMax = s.geomMax ∧ t.pbufSize = s.pbufSize ∧ t.status.busy = false

/-- R204: a model refuses to be built with parameters outside R9's legal values. -/
def Obligations.BuildRefusesIllegalParams : Prop :=
  ∀ p : Params,
    (State.build p = none ↔
      ¬ (1 ≤ p.gridMaxW ∧ p.gridMaxW ≤ 65535 ∧ 1 ≤ p.gridMaxH ∧ p.gridMaxH ≤ 65535 ∧
        max 0 (((3 * p.gridMaxW * p.gridMaxH / 8 : Nat) : Int) - 4) ≤ (p.pbufBytes : Int) ∧
        p.pbufBytes ≤ 4294967295)) ∧
    ∀ s, State.build p = some s → s.params = p

/-! ### Host transactions -/

/-- R57: while BUSY = 1 only a read of STATUS has a defined effect.
The order of moves, HOST_BUSY before HOST_RANGE and
the reply are the model's choices, log entries 3, 6 and 8. -/
def Obligations.OnlyStatusReadWhileBusy : Prop :=
  ∀ s ts t, s.nextTurn (.host t) ts → s.status.busy = true →
    (t = .readReg 0x04 →
      step s = .next { s with turns := ts, reply := some (.word s.status.word) } ∧
        s.status.word.getLsbD 0 = true) ∧
    (t ≠ .readReg 0x04 → step s = .fault .hostBusy)

/-- R56: HOST_RANGE is met exactly at an out-of-range address (with BUSY = 0; log entry 6 for
BUSY = 1). The order of moves is the model's choice, log entry 3. -/
def Obligations.OutOfRangeFaults : Prop :=
  ∀ s ts t, s.nextTurn (.host t) ts → s.status.busy = false →
    (step s = .fault .hostRange ↔ outOfRange s t)

/-- R22: a host read of each register of the map, and that the read changes nothing.
The order of moves and the reply are the model's choices, log entries 3 and 8. -/
def Obligations.RegisterMapReads : Prop :=
  ∀ s ts a, s.nextTurn (.host (.readReg a)) ts → s.status.busy = false →
    ∀ v, (a, v) ∈ [((0x00 : Word), s.cmd), (0x04, s.status.word), (0x08, s.orgDim),
        (0x0C, s.modDim), (0x10, s.len), (0x14, s.cap), (0x18, s.outLen), (0x1C, s.idx),
        (0x20, s.pxy), (0x24, s.resXY), (0x28, s.resMisc.word), (0x2C, s.geomMax),
        (0x30, s.pbufSize)] →
      step s = .next { s with turns := ts, reply := some (.word v) }

/-- R52: an aligned offset of [0x34, 0xFC] reads 0 and ignores writes, and so do the reserved
fields of STATUS and RES_MISC.
The order of moves and the reply are the model's choices, log entries 3 and 8. -/
def Obligations.UnmappedReadsZeroIgnoresWrites : Prop :=
  (∀ s ts a, 0x34 ≤ a.toNat → a.toNat ≤ 0xFC → a.toNat % 4 = 0 → s.status.busy = false →
    (s.nextTurn (.host (.readReg a)) ts →
      step s = .next { s with turns := ts, reply := some (.word 0) }) ∧
    ∀ v, s.nextTurn (.host (.writeReg a v)) ts →
      step s = .next { s with turns := ts, reply := none }) ∧
  ∀ s ts v t, s.status.busy = false →
    (s.nextTurn (.host (.writeReg 0x04 v)) ts ∨ s.nextTurn (.host (.writeReg 0x28 v)) ts) →
    step s = .next t →
    (∀ k, (k = 2 ∨ k = 3 ∨ 9 ≤ k) →
      t.status.word.getLsbD k = false ∧ s.status.word.getLsbD k = false) ∧
    ∀ k, ((2 ≤ k ∧ k ≤ 7) ∨ 9 ≤ k) →
      t.resMisc.word.getLsbD k = false ∧ s.resMisc.word.getLsbD k = false

/-- R53: host writes to registers.
The order of moves and the reply are the model's choices, log entries 3 and 8. -/
def Obligations.RegisterWrites : Prop :=
  ∀ s ts a v, s.nextTurn (.host (.writeReg a v)) ts → s.status.busy = false →
    (a.toNat ∈ [0x14, 0x18, 0x24, 0x28, 0x2C, 0x30] →
      step s = .next { s with turns := ts, reply := none }) ∧
    (a.toNat = 0x04 →
      step s = .next { s with turns := ts, reply := none,
                              status := { s.status with sticky :=
                                (if v.getLsbD 8 then false else s.status.sticky) } }) ∧
    (a.toNat = 0x00 →
      step s = .next { s with turns := ts, reply := none, cmd := v,
                              status := { s.status with busy := true, done := false } }) ∧
    (a.toNat = 0x08 → step s = .next { s with turns := ts, reply := none, orgDim := v }) ∧
    (a.toNat = 0x0C → step s = .next { s with turns := ts, reply := none, modDim := v }) ∧
    (a.toNat = 0x10 → step s = .next { s with turns := ts, reply := none, len := v }) ∧
    (a.toNat = 0x1C → step s = .next { s with turns := ts, reply := none, idx := v }) ∧
    (a.toNat = 0x20 → step s = .next { s with turns := ts, reply := none, pxy := v })

/-- R54: reads and writes of a grid plane. A write stores d[23:0] in the cell alone; a read returns
the cell with bits 31:24 zero.
The order of moves and the reply are the model's choices, log entries 3 and 8. -/
def Obligations.GridTransactions : Prop :=
  ∀ s ts (p : Plane) (a : Word), s.status.busy = false →
    a.toNat / 65536 < s.gridMaxW → a.toNat % 65536 < s.gridMaxH →
    (∀ d, s.nextTurn (.host (.writeGrid p a d)) ts →
      ∃ g, step s = .next { s.setPlane p g with turns := ts, reply := none } ∧
        (∃ v, gridRead g (a.toNat / 65536) (a.toNat % 65536) = some v ∧
          v.toNat = d.toNat % 2 ^ 24) ∧
        ∀ x y, y < 65536 → (x ≠ a.toNat / 65536 ∨ y ≠ a.toNat % 65536) →
          gridRead g x y = gridRead (s.plane p) x y) ∧
    (s.nextTurn (.host (.readGrid p a)) ts →
      ∀ v, gridRead (s.plane p) (a.toNat / 65536) (a.toNat % 65536) = some v →
        ∃ w : Word, step s = .next { s with turns := ts, reply := some (.word w) } ∧
          w.toNat = v.toNat)

/-- R55: reads and writes of PIN and POUT.
The order of moves and the reply are the model's choices, log entries 3 and 8. -/
def Obligations.BufferTransactions : Prop :=
  ∀ s ts (a : Word), s.status.busy = false → a.toNat < s.pbufBytes →
    (∀ v, s.nextTurn (.host (.writePin a v)) ts →
      ∃ m, step s = .next { s with pin := m, turns := ts, reply := none } ∧
        bufRead m a.toNat = some v ∧ ∀ k, k ≠ a.toNat → bufRead m k = bufRead s.pin k) ∧
    (∀ v, s.nextTurn (.host (.writePout a v)) ts →
      step s = .next { s with turns := ts, reply := none }) ∧
    (s.nextTurn (.host (.readPin a)) ts → ∀ v, bufRead s.pin a.toNat = some v →
      step s = .next { s with turns := ts, reply := some (.byte v) }) ∧
    (s.nextTurn (.host (.readPout a)) ts → ∀ v, bufRead s.pout a.toNat = some v →
      step s = .next { s with turns := ts, reply := some (.byte v) })

/-- A host read of a cell or byte that holds no value is UNINIT_READ (R60).
The order of moves is the model's choice, log entry 3. -/
def Obligations.HostReadOfNoValueFaults : Prop :=
  ∀ s ts (a : Word), s.status.busy = false →
    (∀ p, s.nextTurn (.host (.readGrid p a)) ts → a.toNat / 65536 < s.gridMaxW →
      a.toNat % 65536 < s.gridMaxH →
      gridRead (s.plane p) (a.toNat / 65536) (a.toNat % 65536) = none →
      step s = .fault .uninitRead) ∧
    (s.nextTurn (.host (.readPin a)) ts → a.toNat < s.pbufBytes → bufRead s.pin a.toNat = none →
      step s = .fault .uninitRead) ∧
    (s.nextTurn (.host (.readPout a)) ts → a.toNat < s.pbufBytes → bufRead s.pout a.toNat = none →
      step s = .fault .uninitRead)

/-- Host reads have no side effect, and two reads of one location return the same value (R62).
The order of moves and the reply are the model's choices, log entries 3 and 8. -/
def Obligations.ReadsHaveNoSideEffect : Prop :=
  ∀ s ts r t, isRead r → s.nextTurn (.host r) (.host r :: ts) → step s = .next t →
    t = { s with turns := .host r :: ts, reply := t.reply } ∧
      step t = .next { t with turns := ts }

/-! ### Whole-machine rules -/

/-- The invariant holds after reset, for every legal build. -/
def Obligations.ResetMeetsInvariant : Prop :=
  ∀ p : Params, p.legal → (State.resetWith p).Inv

/-- Every step keeps the invariant. -/
def Obligations.StepKeepsInvariant : Prop :=
  ∀ s t, s.Inv → step s = .next t → t.Inv

/-- The sequencer writes no operand register, not CMD, not plane A and not PIN: only a host write to
that very location, or reset, changes them.
The order of moves is the model's choice, log entry 3. -/
def Obligations.OnlyHostWritesOperands : Prop :=
  ∀ s t, step s = .next t →
    (∀ ts, s.turns ≠ .reset :: ts) →
    ((∀ v ts, s.turns ≠ .host (.writeReg 0x00 v) :: ts) → t.cmd = s.cmd) ∧
    ((∀ v ts, s.turns ≠ .host (.writeReg 0x08 v) :: ts) → t.orgDim = s.orgDim) ∧
    ((∀ v ts, s.turns ≠ .host (.writeReg 0x10 v) :: ts) → t.len = s.len) ∧
    ((∀ v ts, s.turns ≠ .host (.writeReg 0x1C v) :: ts) → t.idx = s.idx) ∧
    ((∀ v ts, s.turns ≠ .host (.writeReg 0x20 v) :: ts) → t.pxy = s.pxy) ∧
    ((∀ a v ts, s.turns ≠ .host (.writeGrid .a a v) :: ts) → t.gridA = s.gridA) ∧
    ((∀ a v ts, s.turns ≠ .host (.writePin a v) :: ts) → t.pin = s.pin)

/-- R38, R39: GEOM_MAX and PBUF_SIZE keep their values in every step. -/
def Obligations.ConstantRegistersKeep : Prop :=
  ∀ s t, step s = .next t →
    t.regRead 0x2C = s.regRead 0x2C ∧ t.regRead 0x30 = s.regRead 0x30 ∧
      (s.regRead 0x2C).toNat = 65536 * t.gridMaxW + t.gridMaxH ∧
      (s.regRead 0x30).toNat = t.pbufBytes

/-- Only a perform step or reset clears BUSY (R25, R215), and only the issue sets it.
The order of moves is the model's choice, log entry 3. -/
def Obligations.BusyChangesOnlyBy : Prop :=
  ∀ s t, step s = .next t →
    (s.status.busy = true → t.status.busy = false →
      s.turns = [] ∨ (∃ ts, s.turns = .sequencer :: ts) ∨ ∃ ts, s.turns = .reset :: ts) ∧
    (s.status.busy = false → t.status.busy = true →
      ∃ v ts, s.turns = .host (.writeReg 0x00 v) :: ts)

/-- R47: the record of model faults starts empty, only grows, and is never removed; a state with a
recorded fault is never a successful end, however the run goes on.
The order of moves is the model's choice, log entry 3. -/
def Obligations.FaultRecordIsKept : Prop :=
  (∀ p, (State.resetWith p).faults = []) ∧
  (∀ s f, s.faults = [] → step s = .fault f → (advance s).faults = [f]) ∧
  (∀ s n, s.faults <+: (run n s).faults) ∧
  ∀ s n, s.faults ≠ [] → ¬ (run n s).successfulEnd

/-! ### The functions of the units -/

/-- Operands and results are the fields R81 and R82 name, in arithmetic. -/
def Obligations.OperandFields : Prop :=
  (∀ s : State, s.orgDims.w = s.orgDim.toNat / 65536 ∧ s.orgDims.h = s.orgDim.toNat % 65536 ∧
    s.modDims.w = s.modDim.toNat / 65536 ∧ s.modDims.h = s.modDim.toNat % 65536 ∧
    s.posX = s.pxy.toNat / 65536 ∧ s.posY = s.pxy.toNat % 65536) ∧
  ∀ (s : State) (x y : Nat), x < 65536 → y < 65536 →
    (s.setResXY x y).resXY.toNat = 65536 * x + y

/-- R100: the capacity, and its range over valid dimensions with the largest parameters. -/
def Obligations.CapacityFormula : Prop :=
  ∀ d : Dims, 1 ≤ d.w → 1 ≤ d.h →
    8 * (capacity d + 4) ≤ 3 * d.w * d.h ∧ 3 * d.w * d.h < 8 * (capacity d + 5) ∧
      (d.w ≤ 65535 → d.h ≤ 65535 → -4 ≤ capacity d ∧ capacity d ≤ 1610563580) ∧
      (3 * d.w * d.h < 32 → capacity d < 0) ∧
      (d.w = 1 → d.h = 1 → capacity d = -4) ∧
      (d.w = 65535 → d.h = 65535 → capacity d = 1610563580)

/-- R101, R102: the check is an integer comparison, a negative capacity rejects every length, and
when the payload fits, the frame fits the Coordinate Sequence. -/
def Obligations.FitsIsFrameFits : Prop :=
  ∀ (len : Nat) (d : Dims),
    (fits len d ↔ (len : Int) ≤ capacity d) ∧ (capacity d < 0 → ¬ fits len d) ∧
      (fits len d ↔ 32 + 8 * len ≤ 3 * d.w * d.h)

/-- R103: `cap` is monotone, and every length that fits a legal build lies in [0, PBUF_BYTES]. -/
def Obligations.CapacityMonotone : Prop :=
  (∀ d e : Dims, d.w ≤ e.w → d.h ≤ e.h → capacity d ≤ capacity e) ∧
  ∀ (s : State) (d : Dims), s.params.legal → s.validDims d →
    capacity d ≤ capacity { w := s.gridMaxW, h := s.gridMaxH } ∧
      capacity { w := s.gridMaxW, h := s.gridMaxH } ≤ s.pbufBytes ∧
      ∀ len : Nat, fits len d → len ≤ s.pbufBytes

/-- R111: `coord` enumerates the loop nest channel, x, y. -/
def Obligations.CoordEnumeratesLoopNest : Prop :=
  ∀ d : Dims, 1 ≤ d.w → 1 ≤ d.h →
    (List.range (3 * d.w * d.h)).map (coord d) =
      [Channel.r, Channel.g, Channel.b].flatMap fun c =>
        (List.range d.w).flatMap fun x =>
          (List.range d.h).map fun y => { c := c, x := x, y := y }

/-- R86: position i of the Coordinate Sequence is (c, x, y) with i = c * W * H + x * H + y. -/
def Obligations.CoordInvertsIndex : Prop :=
  ∀ d : Dims, 1 ≤ d.w → 1 ≤ d.h →
    (∀ (c : Channel) (x y : Nat), x < d.w → y < d.h →
      c.code.toNat * d.w * d.h + x * d.h + y < 3 * d.w * d.h ∧
        coord d (c.code.toNat * d.w * d.h + x * d.h + y) = { c := c, x := x, y := y }) ∧
    ∀ i, i < 3 * d.w * d.h →
      (coord d i).x < d.w ∧ (coord d i).y < d.h ∧
        i = (coord d i).c.code.toNat * d.w * d.h + (coord d i).x * d.h + (coord d i).y

/-- The frame's bits (R84, R85, R114, R115): the length first, most significant bit first, then the
payload bytes, each most significant bit first. -/
def Obligations.FrameBitsMsbFirst : Prop :=
  ∀ (len : Word) (pin : Memory 8) (k : Nat),
    (k < 32 → frameBit len pin k = some (len.getLsbD (31 - k))) ∧
    (32 ≤ k → frameBit len pin k =
      (bufRead pin ((k - 32) / 8)).map fun f => f.getLsbD (7 - k % 8))

/-- R130: a toggle flips bit 0 of the channel's lane and no other bit, is its own inverse, and
toggles of different channels commute. -/
def Obligations.ToggleFlipsOneBit : Prop :=
  ∀ (p : Pixel) (c : Channel),
    (∀ k, (toggle p c).getLsbD k =
      if k = 16 - 8 * c.code.toNat then !p.getLsbD k else p.getLsbD k) ∧
    toggle (toggle p c) c = p ∧
    ∀ e, toggle (toggle p c) e = toggle (toggle p e) c

/-- R150: the two forms of the read function, and that it is 1 exactly when the words differ
somewhere in the channel's byte lane. -/
def Obligations.ReadBitComparesLanes : Prop :=
  ∀ (a b : Pixel) (c : Channel),
    (readBit a b c = true ↔ (a ^^^ b) &&& decMask c ≠ 0) ∧
    (readBit a b c = true ↔
      ∃ k, 16 - 8 * c.code.toNat ≤ k ∧ k < 24 - 8 * c.code.toNat ∧ a.getLsbD k ≠ b.getLsbD k)

/-! ### What the commands do -/

/-- R104: CAPACITY. CAP reads back as the capacity, as a signed number (R32). -/
def Obligations.CapacityCommand : Prop :=
  decode 0x00000001 = some .capacity ∧ ∀ s : State,
    (¬ s.validDims s.orgDims → exec .capacity s = .next (s.endedErr 2)) ∧
    (s.validDims s.orgDims → (s.len.toNat : Int) ≤ capacity s.orgDims →
      ∃ c : Word, exec .capacity s = .next (State.endedOk { s with cap := c }) ∧
        c.toInt = capacity s.orgDims) ∧
    (s.validDims s.orgDims → capacity s.orgDims < s.len.toNat →
      ∃ c : Word, exec .capacity s = .next (State.endedErr { s with cap := c } 3) ∧
        c.toInt = capacity s.orgDims ∧
        (c.getLsbD 31 = true ↔ 3 * s.orgDims.w * s.orgDims.h < 32))

/-- R117: COORD. -/
def Obligations.CoordCommand : Prop :=
  decode 0x00000002 = some .coord ∧ ∀ s : State,
    (¬ s.validDims s.orgDims ∨ 3 * s.orgDims.w * s.orgDims.h ≤ s.idx.toNat →
      exec .coord s = .next (s.endedErr 2)) ∧
    (s.validDims s.orgDims → s.idx.toNat < 3 * s.orgDims.w * s.orgDims.h →
      ∃ t, exec .coord s = .next t ∧
        t = State.endedOk { s with resXY := t.resXY, resMisc := t.resMisc } ∧
        t.resXY.toNat / 65536 = s.idx.toNat % (s.orgDims.w * s.orgDims.h) / s.orgDims.h ∧
        t.resXY.toNat % 65536 = s.idx.toNat % (s.orgDims.w * s.orgDims.h) % s.orgDims.h ∧
        t.resMisc.ch.toNat = s.idx.toNat / (s.orgDims.w * s.orgDims.h) ∧
        t.resMisc.bit = s.resMisc.bit)

/-- R118: FRAMEBIT. -/
def Obligations.FramebitCommand : Prop :=
  decode 0x00000003 = some .framebit ∧ ∀ s : State,
    (32 + 8 * s.len.toNat ≤ s.idx.toNat ∨
        (32 ≤ s.idx.toNat ∧ s.pbufBytes ≤ (s.idx.toNat - 32) / 8) →
      exec .framebit s = .next (s.endedErr 2)) ∧
    (s.idx.toNat < 32 →
      exec .framebit s = .next (State.endedOk
        { s with resMisc := { s.resMisc with bit := s.len.getLsbD (31 - s.idx.toNat) } })) ∧
    (32 ≤ s.idx.toNat → s.idx.toNat < 32 + 8 * s.len.toNat →
      (s.idx.toNat - 32) / 8 < s.pbufBytes →
      (∀ f, bufRead s.pin ((s.idx.toNat - 32) / 8) = some f →
        exec .framebit s = .next (State.endedOk
          { s with resMisc := { s.resMisc with bit := f.getLsbD (7 - s.idx.toNat % 8) } })) ∧
      (bufRead s.pin ((s.idx.toNat - 32) / 8) = none → exec .framebit s = .fault .uninitRead))

/-- R119: MAP. -/
def Obligations.MapCommand : Prop :=
  decode 0x00000004 = some .map ∧ ∀ s : State,
    (¬ s.validDims s.orgDims → exec .map s = .next (s.endedErr 2)) ∧
    (s.validDims s.orgDims → ¬ fits s.len.toNat s.orgDims →
      exec .map s =
        .next (State.endedErr { s with cap := BitVec.ofInt 32 (capacity s.orgDims) } 3)) ∧
    (s.validDims s.orgDims → fits s.len.toNat s.orgDims →
      (32 + 8 * s.len.toNat ≤ s.idx.toNat →
        exec .map s =
          .next (State.endedErr { s with cap := BitVec.ofInt 32 (capacity s.orgDims) } 2)) ∧
      (s.idx.toNat < 32 + 8 * s.len.toNat →
        (∀ b, frameBit s.len s.pin s.idx.toNat = some b →
          ∃ t, exec .map s = .next t ∧
            t = State.endedOk { s with cap := BitVec.ofInt 32 (capacity s.orgDims),
                                       resXY := t.resXY, resMisc := t.resMisc } ∧
            t.resXY.toNat / 65536 = (coord s.orgDims s.idx.toNat).x ∧
            t.resXY.toNat % 65536 = (coord s.orgDims s.idx.toNat).y ∧
            t.resMisc.ch = (coord s.orgDims s.idx.toNat).c.code ∧ t.resMisc.bit = b) ∧
        (frameBit s.len s.pin s.idx.toNat = none →
          32 ≤ s.idx.toNat ∧ exec .map s = .fault .uninitRead)))

/-- R131: TOGGLE.R, TOGGLE.G and TOGGLE.B. -/
def Obligations.ToggleCommand : Prop :=
  (decode 0x00000005 = some .toggleR ∧ decode 0x00000015 = some .toggleG ∧
    decode 0x00000025 = some .toggleB) ∧ ∀ (c : Channel) (s : State),
    (¬ s.validDims s.modDims ∨ s.modDims.w ≤ s.posX ∨ s.modDims.h ≤ s.posY →
      exec (toggleOf c) s = .next (s.endedErr 2)) ∧
    (s.validDims s.modDims → s.posX < s.modDims.w → s.posY < s.modDims.h →
      (∀ p, gridRead s.gridB s.posX s.posY = some p →
        ∃ g, exec (toggleOf c) s = .next (State.endedOk { s with gridB := g }) ∧
          gridRead g s.posX s.posY = some (p ^^^ encMask c) ∧
          ∀ a, a ≠ cellAddr s.posX s.posY → Memory.read g a = Memory.read s.gridB a) ∧
      (gridRead s.gridB s.posX s.posY = none → exec (toggleOf c) s = .fault .uninitRead))

/-- The errors of ENCODE (R132, R138): plane B, MOD_DIM and POUT stay as they were. -/
def Obligations.EncodeErrors : Prop :=
  ∀ s : State,
    (¬ s.validDims s.orgDims → exec .encode s = .next (s.endedErr 2)) ∧
    (s.validDims s.orgDims → ¬ fits s.len.toNat s.orgDims →
      exec .encode s =
        .next (State.endedErr { s with cap := BitVec.ofInt 32 (capacity s.orgDims) } 3))

/-- R132, R133, R135, R137: a successful ENCODE, cell by cell. -/
def Obligations.EncodeEmbedsFrame : Prop :=
  ∀ s : State, s.validDims s.orgDims → fits s.len.toNat s.orgDims →
    cellsHold s.gridA s.orgDims → bytesHold s.pin s.len.toNat →
    ∃ g, exec .encode s = .next (State.endedOk
        { s with cap := BitVec.ofInt 32 (capacity s.orgDims), modDim := s.orgDim, gridB := g }) ∧
      (∀ x y, x < s.orgDims.w → y < s.orgDims.h →
        ∃ p q, gridRead s.gridA x y = some p ∧ gridRead g x y = some q ∧
          ∀ c : Channel,
            ((∃ k, k < 32 + 8 * s.len.toNat ∧ coord s.orgDims k = { c := c, x := x, y := y } ∧
                frameBit s.len s.pin k = some true) →
              (p ^^^ q) &&& decMask c = encMask c) ∧
            ((¬ ∃ k, k < 32 + 8 * s.len.toNat ∧ coord s.orgDims k = { c := c, x := x, y := y } ∧
                frameBit s.len s.pin k = some true) →
              p &&& decMask c = q &&& decMask c)) ∧
      ∀ a, outsideGrid s.orgDims a → Memory.read g a = Memory.read s.gridB a

/-- R136: the number of channel values that differ after ENCODE is the number of 1 bits of the
frame, at most 32 + 8L. -/
def Obligations.EncodeSparsity : Prop :=
  ∀ s t : State, s.validDims s.orgDims → fits s.len.toNat s.orgDims →
    exec .encode s = .next t →
    ((cellsOf s.orgDims).flatMap fun xy =>
        [Channel.r, Channel.g, Channel.b].map fun c => (xy, c)).countP
          (fun q => readCellBit t.gridA t.gridB q.2 q.1.1 q.1.2 == some true) =
      (List.range (32 + 8 * s.len.toNat)).countP
        (fun k => frameBit s.len s.pin k == some true) ∧
    (List.range (32 + 8 * s.len.toNat)).countP
        (fun k => frameBit s.len s.pin k == some true) ≤ 32 + 8 * s.len.toNat

/-- R139: the toggles of ENCODE may be applied in any order. -/
def Obligations.EncodeToggleOrder : Prop :=
  ∀ (d : Dims) (len : Word) (pin : Memory 8) (b : Memory 24) (ks : List Nat),
    Memory.wf b → ks.Perm (List.range (32 + 8 * len.toNat)) →
    embedBits d len pin ks b = embedBits d len pin (List.range (32 + 8 * len.toNat)) b

/-- R151: READBIT.R, READBIT.G and READBIT.B. -/
def Obligations.ReadbitCommand : Prop :=
  (decode 0x00000007 = some .readbitR ∧ decode 0x00000017 = some .readbitG ∧
    decode 0x00000027 = some .readbitB) ∧ ∀ (c : Channel) (s : State),
    (¬ s.validDims s.orgDims ∨ s.modDims ≠ s.orgDims ∨ s.orgDims.w ≤ s.posX ∨
        s.orgDims.h ≤ s.posY →
      exec (readbitOf c) s = .next (s.endedErr 2)) ∧
    (s.validDims s.orgDims → s.modDims = s.orgDims → s.posX < s.orgDims.w →
      s.posY < s.orgDims.h →
      (∀ p q, gridRead s.gridA s.posX s.posY = some p → gridRead s.gridB s.posX s.posY = some q →
        exec (readbitOf c) s = .next (State.endedOk
          { s with resMisc := { s.resMisc with bit := (p ^^^ q) &&& decMask c != 0 } })) ∧
      (gridRead s.gridA s.posX s.posY = none ∨ gridRead s.gridB s.posX s.posY = none →
        exec (readbitOf c) s = .fault .uninitRead))

/-- R155, R156: DECODE's checks before it reads a cell. -/
def Obligations.DecodeChecks : Prop :=
  ∀ s : State,
    (¬ s.validDims s.orgDims ∨ s.modDims ≠ s.orgDims →
      exec .decode s = .next (s.endedErr 2)) ∧
    (s.validDims s.orgDims → s.modDims = s.orgDims → 3 * s.orgDims.w * s.orgDims.h < 32 →
      exec .decode s = .next (State.endedErr { s with outLen := 0 } 4))

/-- R152, R153, R157, R158: what DECODE recovers, the truncation check, and the bytes it writes. -/
def Obligations.DecodeRecoversBytes : Prop :=
  ∀ s : State, s.validDims s.orgDims → s.modDims = s.orgDims →
    32 ≤ 3 * s.orgDims.w * s.orgDims.h →
    cellsHold s.gridA s.orgDims → cellsHold s.gridB s.orgDims →
    ∃ (ds : List Byte) (len : Word),
      ds.length = 3 * s.orgDims.w * s.orgDims.h / 8 ∧
      (∀ j b, j < ds.length → b < 8 →
        ∃ p q, gridRead s.gridA (coord s.orgDims (8 * j + b)).x (coord s.orgDims (8 * j + b)).y
            = some p ∧
          gridRead s.gridB (coord s.orgDims (8 * j + b)).x (coord s.orgDims (8 * j + b)).y
            = some q ∧
          (ds.getD j 0).getLsbD (7 - b) = readBit p q (coord s.orgDims (8 * j + b)).c) ∧
      len.toNat = 16777216 * (ds.getD 0 0).toNat + 65536 * (ds.getD 1 0).toNat +
        256 * (ds.getD 2 0).toNat + (ds.getD 3 0).toNat ∧
      (ds.length - 4 < len.toNat →
        exec .decode s = .next (State.endedErr { s with outLen := len } 4)) ∧
      (len.toNat ≤ ds.length - 4 →
        ∃ m, exec .decode s = .next (State.endedOk { s with outLen := len, pout := m }) ∧
          (∀ j, j < len.toNat → bufRead m j = some (ds.getD (4 + j) 0)) ∧
          ∀ a, len.toNat ≤ a → bufRead m a = bufRead s.pout a)

/-- ENCODE meets UNINIT_READ exactly when a cell of A in range or a byte of the payload holds no
value, and DECODE, once it reads, exactly when a cell of A or B in range holds none (R132, R154). -/
def Obligations.EncodeDecodeUninitRead : Prop :=
  ∀ s : State, s.validDims s.orgDims →
    (fits s.len.toNat s.orgDims →
      (exec .encode s = .fault .uninitRead ↔
        ¬ (cellsHold s.gridA s.orgDims ∧ bytesHold s.pin s.len.toNat))) ∧
    (s.modDims = s.orgDims → 32 ≤ 3 * s.orgDims.w * s.orgDims.h →
      (exec .decode s = .fault .uninitRead ↔
        ¬ (cellsHold s.gridA s.orgDims ∧ cellsHold s.gridB s.orgDims)))

/-- R161: identical grids decode to an empty payload. -/
def Obligations.IdenticalGridsDecodeEmpty : Prop :=
  ∀ s : State, s.validDims s.orgDims → s.modDims = s.orgDims →
    4 ≤ 3 * s.orgDims.w * s.orgDims.h / 8 → cellsHold s.gridA s.orgDims →
    (∀ x y, x < s.orgDims.w → y < s.orgDims.h → gridRead s.gridB x y = gridRead s.gridA x y) →
    exec .decode s = .next (State.endedOk { s with outLen := 0 })

/-- R160: ENCODE, then DECODE with no write between the two commands, gives the payload back: from
the pending ENCODE, through any number of polls, to the last read of STATUS.
The order of moves, the reply and the turns of a `wait`
are the model's choices, log entries 3, 8 and 18. -/
def Obligations.EncodeDecodeRoundTrip : Prop :=
  ∀ (s : State) (ts : List Turn) (m n : Nat), s.faults = [] → s.status.busy = true →
    s.cmd = 0x00000006 → s.turns = encodeThenDecode m n ++ ts →
    s.validDims s.orgDims → fits s.len.toNat s.orgDims →
    cellsHold s.gridA s.orgDims → bytesHold s.pin s.len.toNat →
    ∃ t, run (m + n + 5) s = t ∧ t.faults = [] ∧
      t.status.busy = false ∧ t.status.done = true ∧ t.status.err = 0 ∧
      t.reply = some (.word t.status.word) ∧ t.turns = ts ∧
      t.outLen = s.len ∧
      (∀ j, j < s.len.toNat → bufRead t.pout j = bufRead s.pin j) ∧
      (∀ a, s.len.toNat ≤ a → bufRead t.pout a = bufRead s.pout a)

/-- R162: the empty payload. -/
def Obligations.EmptyPayloadRoundTrip : Prop :=
  ∀ s : State, s.len = 0 → s.validDims s.orgDims → cellsHold s.gridA s.orgDims →
    ((∃ t, exec .encode s = .next t ∧ t.status.err = 0) ↔ 0 ≤ capacity s.orgDims) ∧
    (0 ≤ capacity s.orgDims ↔ 4 ≤ 3 * s.orgDims.w * s.orgDims.h / 8) ∧
    (0 ≤ capacity s.orgDims →
      ∃ t u, exec .encode s = .next t ∧ exec .decode t = .next u ∧ u.status.err = 0 ∧
        u.outLen = 0 ∧ u.pout = s.pout)

/-! ### Frames and dependence -/

/-- The write sets of the commands that store to no memory (R49): CAPACITY, COORD, FRAMEBIT, MAP
and READBIT. Every other field, and every cell and byte of memory, is unchanged. -/
def Obligations.RegisterCommandsFrame : Prop :=
  ∀ s t : State,
    (exec .capacity s = .next t → t = { s with status := t.status, cap := t.cap }) ∧
    (exec .coord s = .next t →
      t = { s with status := t.status, resXY := t.resXY,
                   resMisc := { s.resMisc with ch := t.resMisc.ch } }) ∧
    (exec .framebit s = .next t →
      t = { s with status := t.status, resMisc := { s.resMisc with bit := t.resMisc.bit } }) ∧
    (exec .map s = .next t →
      t = { s with status := t.status, cap := t.cap, resXY := t.resXY, resMisc := t.resMisc }) ∧
    ∀ c, exec (readbitOf c) s = .next t →
      t = { s with status := t.status, resMisc := { s.resMisc with bit := t.resMisc.bit } }

/-- The write sets of the commands that store to memory (R49, R72): TOGGLE one cell of B, ENCODE the
cells [0, W) x [0, H) of B, DECODE the bytes [0, OUT_LEN) of POUT. -/
def Obligations.MemoryCommandsFrame : Prop :=
  ∀ s t : State,
    (∀ c, exec (toggleOf c) s = .next t →
      t = { s with status := t.status, gridB := t.gridB } ∧
        ∀ a, a ≠ cellAddr s.posX s.posY → Memory.read t.gridB a = Memory.read s.gridB a) ∧
    (exec .encode s = .next t →
      t = { s with status := t.status, cap := t.cap, modDim := t.modDim, gridB := t.gridB } ∧
        ∀ a, outsideGrid s.orgDims a → Memory.read t.gridB a = Memory.read s.gridB a) ∧
    (exec .decode s = .next t →
      t = { s with status := t.status, outLen := t.outLen, pout := t.pout } ∧
        ∀ a, t.outLen.toNat ≤ a → Memory.read t.pout a = Memory.read s.pout a)

/-- A command that ends with an error writes no memory (R172, R138, R159), and no register but
STATUS, CAP and OUT_LEN. -/
def Obligations.ErrorsWriteNoMemory : Prop :=
  ∀ i s t, exec i s = .next t → t.status.err ≠ 0 →
    t = { s with status := t.status, cap := t.cap, outLen := t.outLen }

/-- R16: what ENCODE and DECODE write depends only on what they read. Two states that agree on a
command's operands give the same error code and the same results, whatever else they hold; ENCODE
does not read plane B, and DECODE does not read LEN, PIN or POUT. -/
def Obligations.ResultsDependOnOperandsOnly : Prop :=
  ∀ s u t : State, u.orgDim = s.orgDim → u.geomMax = s.geomMax → u.gridA = s.gridA →
    (u.len = s.len → u.pin = s.pin → exec .encode s = .next t →
      ∃ v, exec .encode u = .next v ∧ v.status.err = t.status.err ∧
        (t.status.err ≠ 2 → v.cap = t.cap) ∧
        (t.status.err = 0 → v.modDim = t.modDim ∧
          ∀ x y, x < s.orgDims.w → y < s.orgDims.h →
            gridRead v.gridB x y = gridRead t.gridB x y)) ∧
    (u.modDim = s.modDim → u.gridB = s.gridB → exec .decode s = .next t →
      ∃ v, exec .decode u = .next v ∧ v.status.err = t.status.err ∧
        (t.status.err ≠ 2 → v.outLen = t.outLen) ∧
        (t.status.err = 0 →
          ∀ j, j < t.outLen.toNat → bufRead v.pout j = bufRead t.pout j))
end

