-- ==== Sys2Proof/Laws/State.lean ====
section
/-! SUPPORT. One lemma per field per update of `State`, true by `rfl`, so that no later proof
unfolds a record update; and the fields of STATUS after each of its writes. -/

namespace Sys2Proof.Machine

/-! #### `State.setResXY` -/

@[simp] theorem State.setResXY_cmd (s : State) (x y : Nat) :
    (s.setResXY x y).cmd = s.cmd := rfl
@[simp] theorem State.setResXY_status (s : State) (x y : Nat) :
    (s.setResXY x y).status = s.status := rfl
@[simp] theorem State.setResXY_orgDim (s : State) (x y : Nat) :
    (s.setResXY x y).orgDim = s.orgDim := rfl
@[simp] theorem State.setResXY_modDim (s : State) (x y : Nat) :
    (s.setResXY x y).modDim = s.modDim := rfl
@[simp] theorem State.setResXY_len (s : State) (x y : Nat) :
    (s.setResXY x y).len = s.len := rfl
@[simp] theorem State.setResXY_cap (s : State) (x y : Nat) :
    (s.setResXY x y).cap = s.cap := rfl
@[simp] theorem State.setResXY_outLen (s : State) (x y : Nat) :
    (s.setResXY x y).outLen = s.outLen := rfl
@[simp] theorem State.setResXY_idx (s : State) (x y : Nat) :
    (s.setResXY x y).idx = s.idx := rfl
@[simp] theorem State.setResXY_pxy (s : State) (x y : Nat) :
    (s.setResXY x y).pxy = s.pxy := rfl
@[simp] theorem State.setResXY_resXY (s : State) (x y : Nat) :
    (s.setResXY x y).resXY = pair16 (BitVec.ofNat 16 x) (BitVec.ofNat 16 y) := rfl
@[simp] theorem State.setResXY_resMisc (s : State) (x y : Nat) :
    (s.setResXY x y).resMisc = s.resMisc := rfl
@[simp] theorem State.setResXY_geomMax (s : State) (x y : Nat) :
    (s.setResXY x y).geomMax = s.geomMax := rfl
@[simp] theorem State.setResXY_pbufSize (s : State) (x y : Nat) :
    (s.setResXY x y).pbufSize = s.pbufSize := rfl
@[simp] theorem State.setResXY_gridA (s : State) (x y : Nat) :
    (s.setResXY x y).gridA = s.gridA := rfl
@[simp] theorem State.setResXY_gridB (s : State) (x y : Nat) :
    (s.setResXY x y).gridB = s.gridB := rfl
@[simp] theorem State.setResXY_pin (s : State) (x y : Nat) :
    (s.setResXY x y).pin = s.pin := rfl
@[simp] theorem State.setResXY_pout (s : State) (x y : Nat) :
    (s.setResXY x y).pout = s.pout := rfl
@[simp] theorem State.setResXY_faults (s : State) (x y : Nat) :
    (s.setResXY x y).faults = s.faults := rfl
@[simp] theorem State.setResXY_turns (s : State) (x y : Nat) :
    (s.setResXY x y).turns = s.turns := rfl
@[simp] theorem State.setResXY_reply (s : State) (x y : Nat) :
    (s.setResXY x y).reply = s.reply := rfl

/-! #### `State.setResCh` -/

@[simp] theorem State.setResCh_cmd (s : State) (c : Channel) :
    (s.setResCh c).cmd = s.cmd := rfl
@[simp] theorem State.setResCh_status (s : State) (c : Channel) :
    (s.setResCh c).status = s.status := rfl
@[simp] theorem State.setResCh_orgDim (s : State) (c : Channel) :
    (s.setResCh c).orgDim = s.orgDim := rfl
@[simp] theorem State.setResCh_modDim (s : State) (c : Channel) :
    (s.setResCh c).modDim = s.modDim := rfl
@[simp] theorem State.setResCh_len (s : State) (c : Channel) :
    (s.setResCh c).len = s.len := rfl
@[simp] theorem State.setResCh_cap (s : State) (c : Channel) :
    (s.setResCh c).cap = s.cap := rfl
@[simp] theorem State.setResCh_outLen (s : State) (c : Channel) :
    (s.setResCh c).outLen = s.outLen := rfl
@[simp] theorem State.setResCh_idx (s : State) (c : Channel) :
    (s.setResCh c).idx = s.idx := rfl
@[simp] theorem State.setResCh_pxy (s : State) (c : Channel) :
    (s.setResCh c).pxy = s.pxy := rfl
@[simp] theorem State.setResCh_resXY (s : State) (c : Channel) :
    (s.setResCh c).resXY = s.resXY := rfl
@[simp] theorem State.setResCh_resMisc (s : State) (c : Channel) :
    (s.setResCh c).resMisc = { s.resMisc with ch := c.code } := rfl
@[simp] theorem State.setResCh_geomMax (s : State) (c : Channel) :
    (s.setResCh c).geomMax = s.geomMax := rfl
@[simp] theorem State.setResCh_pbufSize (s : State) (c : Channel) :
    (s.setResCh c).pbufSize = s.pbufSize := rfl
@[simp] theorem State.setResCh_gridA (s : State) (c : Channel) :
    (s.setResCh c).gridA = s.gridA := rfl
@[simp] theorem State.setResCh_gridB (s : State) (c : Channel) :
    (s.setResCh c).gridB = s.gridB := rfl
@[simp] theorem State.setResCh_pin (s : State) (c : Channel) :
    (s.setResCh c).pin = s.pin := rfl
@[simp] theorem State.setResCh_pout (s : State) (c : Channel) :
    (s.setResCh c).pout = s.pout := rfl
@[simp] theorem State.setResCh_faults (s : State) (c : Channel) :
    (s.setResCh c).faults = s.faults := rfl
@[simp] theorem State.setResCh_turns (s : State) (c : Channel) :
    (s.setResCh c).turns = s.turns := rfl
@[simp] theorem State.setResCh_reply (s : State) (c : Channel) :
    (s.setResCh c).reply = s.reply := rfl

/-! #### `State.setResBit` -/

@[simp] theorem State.setResBit_cmd (s : State) (b : Bool) :
    (s.setResBit b).cmd = s.cmd := rfl
@[simp] theorem State.setResBit_status (s : State) (b : Bool) :
    (s.setResBit b).status = s.status := rfl
@[simp] theorem State.setResBit_orgDim (s : State) (b : Bool) :
    (s.setResBit b).orgDim = s.orgDim := rfl
@[simp] theorem State.setResBit_modDim (s : State) (b : Bool) :
    (s.setResBit b).modDim = s.modDim := rfl
@[simp] theorem State.setResBit_len (s : State) (b : Bool) :
    (s.setResBit b).len = s.len := rfl
@[simp] theorem State.setResBit_cap (s : State) (b : Bool) :
    (s.setResBit b).cap = s.cap := rfl
@[simp] theorem State.setResBit_outLen (s : State) (b : Bool) :
    (s.setResBit b).outLen = s.outLen := rfl
@[simp] theorem State.setResBit_idx (s : State) (b : Bool) :
    (s.setResBit b).idx = s.idx := rfl
@[simp] theorem State.setResBit_pxy (s : State) (b : Bool) :
    (s.setResBit b).pxy = s.pxy := rfl
@[simp] theorem State.setResBit_resXY (s : State) (b : Bool) :
    (s.setResBit b).resXY = s.resXY := rfl
@[simp] theorem State.setResBit_resMisc (s : State) (b : Bool) :
    (s.setResBit b).resMisc = { s.resMisc with bit := b } := rfl
@[simp] theorem State.setResBit_geomMax (s : State) (b : Bool) :
    (s.setResBit b).geomMax = s.geomMax := rfl
@[simp] theorem State.setResBit_pbufSize (s : State) (b : Bool) :
    (s.setResBit b).pbufSize = s.pbufSize := rfl
@[simp] theorem State.setResBit_gridA (s : State) (b : Bool) :
    (s.setResBit b).gridA = s.gridA := rfl
@[simp] theorem State.setResBit_gridB (s : State) (b : Bool) :
    (s.setResBit b).gridB = s.gridB := rfl
@[simp] theorem State.setResBit_pin (s : State) (b : Bool) :
    (s.setResBit b).pin = s.pin := rfl
@[simp] theorem State.setResBit_pout (s : State) (b : Bool) :
    (s.setResBit b).pout = s.pout := rfl
@[simp] theorem State.setResBit_faults (s : State) (b : Bool) :
    (s.setResBit b).faults = s.faults := rfl
@[simp] theorem State.setResBit_turns (s : State) (b : Bool) :
    (s.setResBit b).turns = s.turns := rfl
@[simp] theorem State.setResBit_reply (s : State) (b : Bool) :
    (s.setResBit b).reply = s.reply := rfl

/-! #### `State.setResCoord` -/

@[simp] theorem State.setResCoord_cmd (s : State) (p : Coord) :
    (s.setResCoord p).cmd = s.cmd := rfl
@[simp] theorem State.setResCoord_status (s : State) (p : Coord) :
    (s.setResCoord p).status = s.status := rfl
@[simp] theorem State.setResCoord_orgDim (s : State) (p : Coord) :
    (s.setResCoord p).orgDim = s.orgDim := rfl
@[simp] theorem State.setResCoord_modDim (s : State) (p : Coord) :
    (s.setResCoord p).modDim = s.modDim := rfl
@[simp] theorem State.setResCoord_len (s : State) (p : Coord) :
    (s.setResCoord p).len = s.len := rfl
@[simp] theorem State.setResCoord_cap (s : State) (p : Coord) :
    (s.setResCoord p).cap = s.cap := rfl
@[simp] theorem State.setResCoord_outLen (s : State) (p : Coord) :
    (s.setResCoord p).outLen = s.outLen := rfl
@[simp] theorem State.setResCoord_idx (s : State) (p : Coord) :
    (s.setResCoord p).idx = s.idx := rfl
@[simp] theorem State.setResCoord_pxy (s : State) (p : Coord) :
    (s.setResCoord p).pxy = s.pxy := rfl
@[simp] theorem State.setResCoord_resXY (s : State) (p : Coord) :
    (s.setResCoord p).resXY = pair16 (BitVec.ofNat 16 p.x) (BitVec.ofNat 16 p.y) := rfl
@[simp] theorem State.setResCoord_resMisc (s : State) (p : Coord) :
    (s.setResCoord p).resMisc = { s.resMisc with ch := p.c.code } := rfl
@[simp] theorem State.setResCoord_geomMax (s : State) (p : Coord) :
    (s.setResCoord p).geomMax = s.geomMax := rfl
@[simp] theorem State.setResCoord_pbufSize (s : State) (p : Coord) :
    (s.setResCoord p).pbufSize = s.pbufSize := rfl
@[simp] theorem State.setResCoord_gridA (s : State) (p : Coord) :
    (s.setResCoord p).gridA = s.gridA := rfl
@[simp] theorem State.setResCoord_gridB (s : State) (p : Coord) :
    (s.setResCoord p).gridB = s.gridB := rfl
@[simp] theorem State.setResCoord_pin (s : State) (p : Coord) :
    (s.setResCoord p).pin = s.pin := rfl
@[simp] theorem State.setResCoord_pout (s : State) (p : Coord) :
    (s.setResCoord p).pout = s.pout := rfl
@[simp] theorem State.setResCoord_faults (s : State) (p : Coord) :
    (s.setResCoord p).faults = s.faults := rfl
@[simp] theorem State.setResCoord_turns (s : State) (p : Coord) :
    (s.setResCoord p).turns = s.turns := rfl
@[simp] theorem State.setResCoord_reply (s : State) (p : Coord) :
    (s.setResCoord p).reply = s.reply := rfl

/-! #### `State.setCap` -/

@[simp] theorem State.setCap_cmd (s : State) (c : Int) :
    (s.setCap c).cmd = s.cmd := rfl
@[simp] theorem State.setCap_status (s : State) (c : Int) :
    (s.setCap c).status = s.status := rfl
@[simp] theorem State.setCap_orgDim (s : State) (c : Int) :
    (s.setCap c).orgDim = s.orgDim := rfl
@[simp] theorem State.setCap_modDim (s : State) (c : Int) :
    (s.setCap c).modDim = s.modDim := rfl
@[simp] theorem State.setCap_len (s : State) (c : Int) :
    (s.setCap c).len = s.len := rfl
@[simp] theorem State.setCap_cap (s : State) (c : Int) :
    (s.setCap c).cap = BitVec.ofInt 32 c := rfl
@[simp] theorem State.setCap_outLen (s : State) (c : Int) :
    (s.setCap c).outLen = s.outLen := rfl
@[simp] theorem State.setCap_idx (s : State) (c : Int) :
    (s.setCap c).idx = s.idx := rfl
@[simp] theorem State.setCap_pxy (s : State) (c : Int) :
    (s.setCap c).pxy = s.pxy := rfl
@[simp] theorem State.setCap_resXY (s : State) (c : Int) :
    (s.setCap c).resXY = s.resXY := rfl
@[simp] theorem State.setCap_resMisc (s : State) (c : Int) :
    (s.setCap c).resMisc = s.resMisc := rfl
@[simp] theorem State.setCap_geomMax (s : State) (c : Int) :
    (s.setCap c).geomMax = s.geomMax := rfl
@[simp] theorem State.setCap_pbufSize (s : State) (c : Int) :
    (s.setCap c).pbufSize = s.pbufSize := rfl
@[simp] theorem State.setCap_gridA (s : State) (c : Int) :
    (s.setCap c).gridA = s.gridA := rfl
@[simp] theorem State.setCap_gridB (s : State) (c : Int) :
    (s.setCap c).gridB = s.gridB := rfl
@[simp] theorem State.setCap_pin (s : State) (c : Int) :
    (s.setCap c).pin = s.pin := rfl
@[simp] theorem State.setCap_pout (s : State) (c : Int) :
    (s.setCap c).pout = s.pout := rfl
@[simp] theorem State.setCap_faults (s : State) (c : Int) :
    (s.setCap c).faults = s.faults := rfl
@[simp] theorem State.setCap_turns (s : State) (c : Int) :
    (s.setCap c).turns = s.turns := rfl
@[simp] theorem State.setCap_reply (s : State) (c : Int) :
    (s.setCap c).reply = s.reply := rfl

/-! #### `State.finish` -/

@[simp] theorem State.finish_cmd (s : State) (code : BitVec 4) :
    (s.finish code).cmd = s.cmd := rfl
@[simp] theorem State.finish_status (s : State) (code : BitVec 4) :
    (s.finish code).status = s.status.finish code := rfl
@[simp] theorem State.finish_orgDim (s : State) (code : BitVec 4) :
    (s.finish code).orgDim = s.orgDim := rfl
@[simp] theorem State.finish_modDim (s : State) (code : BitVec 4) :
    (s.finish code).modDim = s.modDim := rfl
@[simp] theorem State.finish_len (s : State) (code : BitVec 4) :
    (s.finish code).len = s.len := rfl
@[simp] theorem State.finish_cap (s : State) (code : BitVec 4) :
    (s.finish code).cap = s.cap := rfl
@[simp] theorem State.finish_outLen (s : State) (code : BitVec 4) :
    (s.finish code).outLen = s.outLen := rfl
@[simp] theorem State.finish_idx (s : State) (code : BitVec 4) :
    (s.finish code).idx = s.idx := rfl
@[simp] theorem State.finish_pxy (s : State) (code : BitVec 4) :
    (s.finish code).pxy = s.pxy := rfl
@[simp] theorem State.finish_resXY (s : State) (code : BitVec 4) :
    (s.finish code).resXY = s.resXY := rfl
@[simp] theorem State.finish_resMisc (s : State) (code : BitVec 4) :
    (s.finish code).resMisc = s.resMisc := rfl
@[simp] theorem State.finish_geomMax (s : State) (code : BitVec 4) :
    (s.finish code).geomMax = s.geomMax := rfl
@[simp] theorem State.finish_pbufSize (s : State) (code : BitVec 4) :
    (s.finish code).pbufSize = s.pbufSize := rfl
@[simp] theorem State.finish_gridA (s : State) (code : BitVec 4) :
    (s.finish code).gridA = s.gridA := rfl
@[simp] theorem State.finish_gridB (s : State) (code : BitVec 4) :
    (s.finish code).gridB = s.gridB := rfl
@[simp] theorem State.finish_pin (s : State) (code : BitVec 4) :
    (s.finish code).pin = s.pin := rfl
@[simp] theorem State.finish_pout (s : State) (code : BitVec 4) :
    (s.finish code).pout = s.pout := rfl
@[simp] theorem State.finish_faults (s : State) (code : BitVec 4) :
    (s.finish code).faults = s.faults := rfl
@[simp] theorem State.finish_turns (s : State) (code : BitVec 4) :
    (s.finish code).turns = s.turns := rfl
@[simp] theorem State.finish_reply (s : State) (code : BitVec 4) :
    (s.finish code).reply = s.reply := rfl

/-! #### `State.issue` -/

@[simp] theorem State.issue_cmd (s : State) (v : Word) :
    (s.issue v).cmd = v := rfl
@[simp] theorem State.issue_status (s : State) (v : Word) :
    (s.issue v).status = s.status.issue := rfl
@[simp] theorem State.issue_orgDim (s : State) (v : Word) :
    (s.issue v).orgDim = s.orgDim := rfl
@[simp] theorem State.issue_modDim (s : State) (v : Word) :
    (s.issue v).modDim = s.modDim := rfl
@[simp] theorem State.issue_len (s : State) (v : Word) :
    (s.issue v).len = s.len := rfl
@[simp] theorem State.issue_cap (s : State) (v : Word) :
    (s.issue v).cap = s.cap := rfl
@[simp] theorem State.issue_outLen (s : State) (v : Word) :
    (s.issue v).outLen = s.outLen := rfl
@[simp] theorem State.issue_idx (s : State) (v : Word) :
    (s.issue v).idx = s.idx := rfl
@[simp] theorem State.issue_pxy (s : State) (v : Word) :
    (s.issue v).pxy = s.pxy := rfl
@[simp] theorem State.issue_resXY (s : State) (v : Word) :
    (s.issue v).resXY = s.resXY := rfl
@[simp] theorem State.issue_resMisc (s : State) (v : Word) :
    (s.issue v).resMisc = s.resMisc := rfl
@[simp] theorem State.issue_geomMax (s : State) (v : Word) :
    (s.issue v).geomMax = s.geomMax := rfl
@[simp] theorem State.issue_pbufSize (s : State) (v : Word) :
    (s.issue v).pbufSize = s.pbufSize := rfl
@[simp] theorem State.issue_gridA (s : State) (v : Word) :
    (s.issue v).gridA = s.gridA := rfl
@[simp] theorem State.issue_gridB (s : State) (v : Word) :
    (s.issue v).gridB = s.gridB := rfl
@[simp] theorem State.issue_pin (s : State) (v : Word) :
    (s.issue v).pin = s.pin := rfl
@[simp] theorem State.issue_pout (s : State) (v : Word) :
    (s.issue v).pout = s.pout := rfl
@[simp] theorem State.issue_faults (s : State) (v : Word) :
    (s.issue v).faults = s.faults := rfl
@[simp] theorem State.issue_turns (s : State) (v : Word) :
    (s.issue v).turns = s.turns := rfl
@[simp] theorem State.issue_reply (s : State) (v : Word) :
    (s.issue v).reply = s.reply := rfl

/-! #### `State.answer` -/

@[simp] theorem State.answer_cmd (s : State) (r : Reply) :
    (s.answer r).cmd = s.cmd := rfl
@[simp] theorem State.answer_status (s : State) (r : Reply) :
    (s.answer r).status = s.status := rfl
@[simp] theorem State.answer_orgDim (s : State) (r : Reply) :
    (s.answer r).orgDim = s.orgDim := rfl
@[simp] theorem State.answer_modDim (s : State) (r : Reply) :
    (s.answer r).modDim = s.modDim := rfl
@[simp] theorem State.answer_len (s : State) (r : Reply) :
    (s.answer r).len = s.len := rfl
@[simp] theorem State.answer_cap (s : State) (r : Reply) :
    (s.answer r).cap = s.cap := rfl
@[simp] theorem State.answer_outLen (s : State) (r : Reply) :
    (s.answer r).outLen = s.outLen := rfl
@[simp] theorem State.answer_idx (s : State) (r : Reply) :
    (s.answer r).idx = s.idx := rfl
@[simp] theorem State.answer_pxy (s : State) (r : Reply) :
    (s.answer r).pxy = s.pxy := rfl
@[simp] theorem State.answer_resXY (s : State) (r : Reply) :
    (s.answer r).resXY = s.resXY := rfl
@[simp] theorem State.answer_resMisc (s : State) (r : Reply) :
    (s.answer r).resMisc = s.resMisc := rfl
@[simp] theorem State.answer_geomMax (s : State) (r : Reply) :
    (s.answer r).geomMax = s.geomMax := rfl
@[simp] theorem State.answer_pbufSize (s : State) (r : Reply) :
    (s.answer r).pbufSize = s.pbufSize := rfl
@[simp] theorem State.answer_gridA (s : State) (r : Reply) :
    (s.answer r).gridA = s.gridA := rfl
@[simp] theorem State.answer_gridB (s : State) (r : Reply) :
    (s.answer r).gridB = s.gridB := rfl
@[simp] theorem State.answer_pin (s : State) (r : Reply) :
    (s.answer r).pin = s.pin := rfl
@[simp] theorem State.answer_pout (s : State) (r : Reply) :
    (s.answer r).pout = s.pout := rfl
@[simp] theorem State.answer_faults (s : State) (r : Reply) :
    (s.answer r).faults = s.faults := rfl
@[simp] theorem State.answer_turns (s : State) (r : Reply) :
    (s.answer r).turns = s.turns := rfl
@[simp] theorem State.answer_reply (s : State) (r : Reply) :
    (s.answer r).reply = some r := rfl

/-! #### `State.noAnswer` -/

@[simp] theorem State.noAnswer_cmd (s : State) :
    (s.noAnswer).cmd = s.cmd := rfl
@[simp] theorem State.noAnswer_status (s : State) :
    (s.noAnswer).status = s.status := rfl
@[simp] theorem State.noAnswer_orgDim (s : State) :
    (s.noAnswer).orgDim = s.orgDim := rfl
@[simp] theorem State.noAnswer_modDim (s : State) :
    (s.noAnswer).modDim = s.modDim := rfl
@[simp] theorem State.noAnswer_len (s : State) :
    (s.noAnswer).len = s.len := rfl
@[simp] theorem State.noAnswer_cap (s : State) :
    (s.noAnswer).cap = s.cap := rfl
@[simp] theorem State.noAnswer_outLen (s : State) :
    (s.noAnswer).outLen = s.outLen := rfl
@[simp] theorem State.noAnswer_idx (s : State) :
    (s.noAnswer).idx = s.idx := rfl
@[simp] theorem State.noAnswer_pxy (s : State) :
    (s.noAnswer).pxy = s.pxy := rfl
@[simp] theorem State.noAnswer_resXY (s : State) :
    (s.noAnswer).resXY = s.resXY := rfl
@[simp] theorem State.noAnswer_resMisc (s : State) :
    (s.noAnswer).resMisc = s.resMisc := rfl
@[simp] theorem State.noAnswer_geomMax (s : State) :
    (s.noAnswer).geomMax = s.geomMax := rfl
@[simp] theorem State.noAnswer_pbufSize (s : State) :
    (s.noAnswer).pbufSize = s.pbufSize := rfl
@[simp] theorem State.noAnswer_gridA (s : State) :
    (s.noAnswer).gridA = s.gridA := rfl
@[simp] theorem State.noAnswer_gridB (s : State) :
    (s.noAnswer).gridB = s.gridB := rfl
@[simp] theorem State.noAnswer_pin (s : State) :
    (s.noAnswer).pin = s.pin := rfl
@[simp] theorem State.noAnswer_pout (s : State) :
    (s.noAnswer).pout = s.pout := rfl
@[simp] theorem State.noAnswer_faults (s : State) :
    (s.noAnswer).faults = s.faults := rfl
@[simp] theorem State.noAnswer_turns (s : State) :
    (s.noAnswer).turns = s.turns := rfl
@[simp] theorem State.noAnswer_reply (s : State) :
    (s.noAnswer).reply = none := rfl

/-! #### `State.recordFault` -/

@[simp] theorem State.recordFault_cmd (s : State) (f : Fault) :
    (s.recordFault f).cmd = s.cmd := rfl
@[simp] theorem State.recordFault_status (s : State) (f : Fault) :
    (s.recordFault f).status = s.status := rfl
@[simp] theorem State.recordFault_orgDim (s : State) (f : Fault) :
    (s.recordFault f).orgDim = s.orgDim := rfl
@[simp] theorem State.recordFault_modDim (s : State) (f : Fault) :
    (s.recordFault f).modDim = s.modDim := rfl
@[simp] theorem State.recordFault_len (s : State) (f : Fault) :
    (s.recordFault f).len = s.len := rfl
@[simp] theorem State.recordFault_cap (s : State) (f : Fault) :
    (s.recordFault f).cap = s.cap := rfl
@[simp] theorem State.recordFault_outLen (s : State) (f : Fault) :
    (s.recordFault f).outLen = s.outLen := rfl
@[simp] theorem State.recordFault_idx (s : State) (f : Fault) :
    (s.recordFault f).idx = s.idx := rfl
@[simp] theorem State.recordFault_pxy (s : State) (f : Fault) :
    (s.recordFault f).pxy = s.pxy := rfl
@[simp] theorem State.recordFault_resXY (s : State) (f : Fault) :
    (s.recordFault f).resXY = s.resXY := rfl
@[simp] theorem State.recordFault_resMisc (s : State) (f : Fault) :
    (s.recordFault f).resMisc = s.resMisc := rfl
@[simp] theorem State.recordFault_geomMax (s : State) (f : Fault) :
    (s.recordFault f).geomMax = s.geomMax := rfl
@[simp] theorem State.recordFault_pbufSize (s : State) (f : Fault) :
    (s.recordFault f).pbufSize = s.pbufSize := rfl
@[simp] theorem State.recordFault_gridA (s : State) (f : Fault) :
    (s.recordFault f).gridA = s.gridA := rfl
@[simp] theorem State.recordFault_gridB (s : State) (f : Fault) :
    (s.recordFault f).gridB = s.gridB := rfl
@[simp] theorem State.recordFault_pin (s : State) (f : Fault) :
    (s.recordFault f).pin = s.pin := rfl
@[simp] theorem State.recordFault_pout (s : State) (f : Fault) :
    (s.recordFault f).pout = s.pout := rfl
@[simp] theorem State.recordFault_faults (s : State) (f : Fault) :
    (s.recordFault f).faults = s.faults ++ [f] := rfl
@[simp] theorem State.recordFault_turns (s : State) (f : Fault) :
    (s.recordFault f).turns = s.turns := rfl
@[simp] theorem State.recordFault_reply (s : State) (f : Fault) :
    (s.recordFault f).reply = s.reply := rfl

/-! #### `State.placeCommand` -/

@[simp] theorem State.placeCommand_cmd (s : State) (w : Word) :
    (s.placeCommand w).cmd = w := rfl
@[simp] theorem State.placeCommand_status (s : State) (w : Word) :
    (s.placeCommand w).status = s.status.issue := rfl
@[simp] theorem State.placeCommand_orgDim (s : State) (w : Word) :
    (s.placeCommand w).orgDim = s.orgDim := rfl
@[simp] theorem State.placeCommand_modDim (s : State) (w : Word) :
    (s.placeCommand w).modDim = s.modDim := rfl
@[simp] theorem State.placeCommand_len (s : State) (w : Word) :
    (s.placeCommand w).len = s.len := rfl
@[simp] theorem State.placeCommand_cap (s : State) (w : Word) :
    (s.placeCommand w).cap = s.cap := rfl
@[simp] theorem State.placeCommand_outLen (s : State) (w : Word) :
    (s.placeCommand w).outLen = s.outLen := rfl
@[simp] theorem State.placeCommand_idx (s : State) (w : Word) :
    (s.placeCommand w).idx = s.idx := rfl
@[simp] theorem State.placeCommand_pxy (s : State) (w : Word) :
    (s.placeCommand w).pxy = s.pxy := rfl
@[simp] theorem State.placeCommand_resXY (s : State) (w : Word) :
    (s.placeCommand w).resXY = s.resXY := rfl
@[simp] theorem State.placeCommand_resMisc (s : State) (w : Word) :
    (s.placeCommand w).resMisc = s.resMisc := rfl
@[simp] theorem State.placeCommand_geomMax (s : State) (w : Word) :
    (s.placeCommand w).geomMax = s.geomMax := rfl
@[simp] theorem State.placeCommand_pbufSize (s : State) (w : Word) :
    (s.placeCommand w).pbufSize = s.pbufSize := rfl
@[simp] theorem State.placeCommand_gridA (s : State) (w : Word) :
    (s.placeCommand w).gridA = s.gridA := rfl
@[simp] theorem State.placeCommand_gridB (s : State) (w : Word) :
    (s.placeCommand w).gridB = s.gridB := rfl
@[simp] theorem State.placeCommand_pin (s : State) (w : Word) :
    (s.placeCommand w).pin = s.pin := rfl
@[simp] theorem State.placeCommand_pout (s : State) (w : Word) :
    (s.placeCommand w).pout = s.pout := rfl
@[simp] theorem State.placeCommand_faults (s : State) (w : Word) :
    (s.placeCommand w).faults = [] := rfl
@[simp] theorem State.placeCommand_turns (s : State) (w : Word) :
    (s.placeCommand w).turns = .sequencer :: s.turns := rfl
@[simp] theorem State.placeCommand_reply (s : State) (w : Word) :
    (s.placeCommand w).reply = s.reply := rfl

/-! #### `State.resetOf` and `resetInput` -/

@[simp] theorem State.resetOf_cmd (g b : Word) :
    (State.resetOf g b).cmd = 0 := rfl
@[simp] theorem State.resetOf_status (g b : Word) :
    (State.resetOf g b).status = { busy := false, done := false, err := 0, sticky := false } := rfl
@[simp] theorem State.resetOf_orgDim (g b : Word) :
    (State.resetOf g b).orgDim = 0 := rfl
@[simp] theorem State.resetOf_modDim (g b : Word) :
    (State.resetOf g b).modDim = 0 := rfl
@[simp] theorem State.resetOf_len (g b : Word) :
    (State.resetOf g b).len = 0 := rfl
@[simp] theorem State.resetOf_cap (g b : Word) :
    (State.resetOf g b).cap = 0 := rfl
@[simp] theorem State.resetOf_outLen (g b : Word) :
    (State.resetOf g b).outLen = 0 := rfl
@[simp] theorem State.resetOf_idx (g b : Word) :
    (State.resetOf g b).idx = 0 := rfl
@[simp] theorem State.resetOf_pxy (g b : Word) :
    (State.resetOf g b).pxy = 0 := rfl
@[simp] theorem State.resetOf_resXY (g b : Word) :
    (State.resetOf g b).resXY = 0 := rfl
@[simp] theorem State.resetOf_resMisc (g b : Word) :
    (State.resetOf g b).resMisc = { ch := 0, bit := false } := rfl
@[simp] theorem State.resetOf_geomMax (g b : Word) :
    (State.resetOf g b).geomMax = g := rfl
@[simp] theorem State.resetOf_pbufSize (g b : Word) :
    (State.resetOf g b).pbufSize = b := rfl
@[simp] theorem State.resetOf_gridA (g b : Word) :
    (State.resetOf g b).gridA = [] := rfl
@[simp] theorem State.resetOf_gridB (g b : Word) :
    (State.resetOf g b).gridB = [] := rfl
@[simp] theorem State.resetOf_pin (g b : Word) :
    (State.resetOf g b).pin = [] := rfl
@[simp] theorem State.resetOf_pout (g b : Word) :
    (State.resetOf g b).pout = [] := rfl
@[simp] theorem State.resetOf_faults (g b : Word) :
    (State.resetOf g b).faults = [] := rfl
@[simp] theorem State.resetOf_turns (g b : Word) :
    (State.resetOf g b).turns = [] := rfl
@[simp] theorem State.resetOf_reply (g b : Word) :
    (State.resetOf g b).reply = none := rfl
@[simp] theorem resetInput_cmd (s : State) :
    (resetInput s).cmd = 0 := rfl
@[simp] theorem resetInput_status (s : State) :
    (resetInput s).status = { busy := false, done := false, err := 0, sticky := false } := rfl
@[simp] theorem resetInput_orgDim (s : State) :
    (resetInput s).orgDim = 0 := rfl
@[simp] theorem resetInput_modDim (s : State) :
    (resetInput s).modDim = 0 := rfl
@[simp] theorem resetInput_len (s : State) :
    (resetInput s).len = 0 := rfl
@[simp] theorem resetInput_cap (s : State) :
    (resetInput s).cap = 0 := rfl
@[simp] theorem resetInput_outLen (s : State) :
    (resetInput s).outLen = 0 := rfl
@[simp] theorem resetInput_idx (s : State) :
    (resetInput s).idx = 0 := rfl
@[simp] theorem resetInput_pxy (s : State) :
    (resetInput s).pxy = 0 := rfl
@[simp] theorem resetInput_resXY (s : State) :
    (resetInput s).resXY = 0 := rfl
@[simp] theorem resetInput_resMisc (s : State) :
    (resetInput s).resMisc = { ch := 0, bit := false } := rfl
@[simp] theorem resetInput_geomMax (s : State) :
    (resetInput s).geomMax = s.geomMax := rfl
@[simp] theorem resetInput_pbufSize (s : State) :
    (resetInput s).pbufSize = s.pbufSize := rfl
@[simp] theorem resetInput_gridA (s : State) :
    (resetInput s).gridA = [] := rfl
@[simp] theorem resetInput_gridB (s : State) :
    (resetInput s).gridB = [] := rfl
@[simp] theorem resetInput_pin (s : State) :
    (resetInput s).pin = [] := rfl
@[simp] theorem resetInput_pout (s : State) :
    (resetInput s).pout = [] := rfl
@[simp] theorem resetInput_faults (s : State) :
    (resetInput s).faults = [] := rfl
@[simp] theorem resetInput_turns (s : State) :
    (resetInput s).turns = s.turns := rfl
@[simp] theorem resetInput_reply (s : State) :
    (resetInput s).reply = none := rfl

/-! #### STATUS -/

@[simp] theorem Status.issue_busy (s : Status) :
    (s.issue).busy = true := rfl
@[simp] theorem Status.issue_done (s : Status) :
    (s.issue).done = false := rfl
@[simp] theorem Status.issue_err (s : Status) :
    (s.issue).err = s.err := rfl
@[simp] theorem Status.issue_sticky (s : Status) :
    (s.issue).sticky = s.sticky := rfl
@[simp] theorem Status.finish_busy (s : Status) (code : BitVec 4) :
    (s.finish code).busy = false := rfl
@[simp] theorem Status.finish_done (s : Status) (code : BitVec 4) :
    (s.finish code).done = true := rfl
@[simp] theorem Status.finish_err (s : Status) (code : BitVec 4) :
    (s.finish code).err = code := rfl
@[simp] theorem Status.finish_sticky (s : Status) (code : BitVec 4) :
    (s.finish code).sticky = (s.sticky || code != 0) := rfl
@[simp] theorem Status.hostWrite_busy (s : Status) (v : Word) :
    (s.hostWrite v).busy = s.busy := rfl
@[simp] theorem Status.hostWrite_done (s : Status) (v : Word) :
    (s.hostWrite v).done = s.done := rfl
@[simp] theorem Status.hostWrite_err (s : Status) (v : Word) :
    (s.hostWrite v).err = s.err := rfl
@[simp] theorem Status.hostWrite_sticky (s : Status) (v : Word) :
    (s.hostWrite v).sticky = (s.sticky && !v.getLsbD 8) := rfl

end Sys2Proof.Machine
end

