-- ==== Sys2Proof/Laws/Fields.lean ====
section
/-! SUPPORT. The bit fields as arithmetic: halves of a word, pairs, masks, the frame's bytes and bits,
the toggle and the lane comparison. -/

namespace Sys2Proof.Machine

theorem hi16_toNat (w : Word) : (hi16 w).toNat = w.toNat / 65536 := by
  have := w.isLt
  simp only [hi16, BitVec.extractLsb'_toNat, Nat.shiftRight_eq_div_pow]
  omega

theorem lo16_toNat (w : Word) : (lo16 w).toNat = w.toNat % 65536 := by
  simp [lo16, BitVec.extractLsb'_toNat]

theorem pair16_toNat (a b : BitVec 16) : (pair16 a b).toNat = 65536 * a.toNat + b.toNat := by
  have := b.isLt
  unfold pair16
  rw [BitVec.toNat_append, Nat.shiftLeft_eq, Nat.mul_comm, show (65536 : Nat) = 2 ^ 16 by norm_num,
    ← Nat.two_pow_add_eq_or_of_lt (by omega)]

theorem hi16_pair16 (a b : BitVec 16) : hi16 (pair16 a b) = a := by
  apply BitVec.eq_of_toNat_eq
  have := b.isLt
  rw [hi16_toNat, pair16_toNat]; omega

theorem lo16_pair16 (a b : BitVec 16) : lo16 (pair16 a b) = b := by
  apply BitVec.eq_of_toNat_eq
  have := b.isLt
  rw [lo16_toNat, pair16_toNat]; omega

/-- The address of the cell a host address names is that address. -/
theorem cellAddr_host (a : Word) : cellAddr (hi16 a).toNat (lo16 a).toNat = a.toNat := by
  rw [hi16_toNat, lo16_toNat]; unfold cellAddr; omega

theorem State.gridMaxW_lt (s : State) : s.gridMaxW < 65536 := (hi16 s.geomMax).isLt

theorem State.gridMaxH_lt (s : State) : s.gridMaxH < 65536 := (lo16 s.geomMax).isLt

/-- Valid dimensions are below 2^16. -/
theorem State.validDims_lt {s : State} {d : Dims} (h : s.validDims d) :
    0 < d.w ∧ 0 < d.h ∧ d.w < 65536 ∧ d.h < 65536 := by
  have := s.gridMaxW_lt
  have := s.gridMaxH_lt
  obtain ⟨⟨_, _⟩, _, _⟩ := h
  omega

/-- The parameters of a build are those it was built with. -/
theorem params_resetWith {p : Params} (h : p.legal) : (State.resetWith p).params = p := by
  obtain ⟨⟨_, hw⟩, ⟨_, hh⟩, _, hb⟩ := h
  obtain ⟨w, hgt, b⟩ := p
  simp only at hw hh hb
  simp only [State.params, State.gridMaxW, State.gridMaxH, State.pbufBytes, State.resetWith,
    State.resetOf_geomMax, State.resetOf_pbufSize, geomMaxWord, pbufSizeWord, hi16_pair16,
    lo16_pair16, BitVec.toNat_ofNat, Params.mk.injEq]
  omega

/-! ### Masks -/

/-- BITMASK[b] selects bit 7 - b (R42). -/
theorem and_bitMask_ne_zero (f : Byte) {b : Nat} (hb : b < 8) :
    (f &&& bitMask b != 0) = f.getLsbD (7 - b) := by
  have key : ∀ f : Byte, ∀ b : Fin 8, (f &&& bitMask b != 0) = f.getLsbD (7 - b) := by
    decide
  exact key f ⟨b, hb⟩

theorem bitMask_getLsbD {b : Nat} (hb : b < 8) (k : Nat) :
    (bitMask b).getLsbD k = decide (k = 7 - b) := by
  by_cases hk : k < 8
  · have key : ∀ b k : Fin 8, (bitMask b).getLsbD k = decide ((k : Nat) = 7 - b) := by decide
    exact key ⟨b, hb⟩ ⟨k, hk⟩
  · rw [BitVec.getLsbD_of_ge _ _ (by omega)]
    simp; omega

/-- ENC_MASK[c] is bit 16 - 8c (R40). -/
theorem encMask_getLsbD (c : Channel) (k : Nat) :
    (encMask c).getLsbD k = decide (k = 16 - 8 * c.code.toNat) := by
  by_cases hk : k < 24
  · have key : ∀ k : Fin 24, (encMask c).getLsbD k = decide ((k : Nat) = 16 - 8 * c.code.toNat) := by
      cases c <;> decide
    exact key ⟨k, hk⟩
  · rw [BitVec.getLsbD_of_ge _ _ (by omega)]
    cases c <;> simp [Channel.code] <;> omega

/-- DEC_MASK[c] is the byte lane of channel c (R41). -/
theorem decMask_getLsbD (c : Channel) (k : Nat) :
    (decMask c).getLsbD k = decide (16 - 8 * c.code.toNat ≤ k ∧ k < 24 - 8 * c.code.toNat) := by
  by_cases hk : k < 24
  · have key : ∀ k : Fin 24, (decMask c).getLsbD k =
        decide (16 - 8 * c.code.toNat ≤ (k : Nat) ∧ (k : Nat) < 24 - 8 * c.code.toNat) := by
      cases c <;> decide
    exact key ⟨k, hk⟩
  · rw [BitVec.getLsbD_of_ge _ _ (by omega)]
    cases c <;> simp [Channel.code] <;> omega

/-- The encode masks lie in their own lanes and in no other (R40, R45). -/
theorem encMask_and_decMask (c e : Channel) :
    encMask c &&& decMask e = if c = e then encMask e else 0 := by
  cases c <;> cases e <;> decide

theorem encMask_ne_zero (c : Channel) : encMask c ≠ 0 := by cases c <;> decide

/-! ### Toggling and reading -/

theorem toggle_toggle (p : Pixel) (c : Channel) : toggle (toggle p c) c = p := by
  unfold toggle; rw [BitVec.xor_assoc, BitVec.xor_self, BitVec.xor_zero]

theorem toggle_comm (p : Pixel) (c e : Channel) :
    toggle (toggle p c) e = toggle (toggle p e) c := by
  unfold toggle; rw [BitVec.xor_assoc, BitVec.xor_comm (encMask c), ← BitVec.xor_assoc]

/-- The two forms of `readBit` (R150). -/
theorem readBit_iff (a b : Pixel) (c : Channel) :
    readBit a b c = true ↔ (a ^^^ b) &&& decMask c ≠ 0 := by
  have h : (a ^^^ b) &&& decMask c = (a &&& decMask c) ^^^ (b &&& decMask c) := by
    ext k hk
    simp only [BitVec.getElem_and, BitVec.getElem_xor]
    cases a[k] <;> cases b[k] <;> cases (decMask c)[k] <;> rfl
  rw [h, readBit, bne_iff_ne, not_iff_not]
  constructor
  · intro e; simp [e]
  · intro e
    have := congrArg (· ^^^ (b &&& decMask c)) e
    simpa [BitVec.xor_assoc] using this

theorem readBit_self (a : Pixel) (c : Channel) : readBit a a c = false := by
  simp [readBit]

theorem readBit_toggle (p : Pixel) (c : Channel) : readBit p (toggle p c) c = true := by
  rw [readBit_iff, toggle, ← BitVec.xor_assoc, BitVec.xor_self, BitVec.zero_xor,
    encMask_and_decMask, if_pos rfl]
  exact encMask_ne_zero c

end Sys2Proof.Machine
end

