-- ==== Sys2Proof/Laws/Memory.lean ====
section
/-! SUPPORT. The laws of the memories: a read after a write, the canonical form, and that two
canonical memories with the same reads are equal. -/

namespace Sys2Proof.Machine

theorem Memory.read_write_same {n : Nat} (m : Memory n) (a : Nat) (v : BitVec n) :
    Memory.read (Memory.write m a v) a = some v := by
  induction m with
  | nil => simp [Memory.write, Memory.read]
  | cons c m ih =>
    simp only [Memory.write]
    split
    · simp [Memory.read]
    · split
      · simp [Memory.read]
      · next h => simp [Memory.read, h, ih]

theorem Memory.read_write_other {n : Nat} (m : Memory n) {a b : Nat} (v : BitVec n) (h : b ≠ a) :
    Memory.read (Memory.write m a v) b = Memory.read m b := by
  induction m with
  | nil => simp [Memory.write, Memory.read, h]
  | cons c m ih =>
    simp only [Memory.write]
    split
    · simp [Memory.read, h]
    · split
      · next e => simp [Memory.read, ← e, h]
      · simp [Memory.read, ih]

theorem Memory.read_write {n : Nat} (m : Memory n) (a b : Nat) (v : BitVec n) :
    Memory.read (Memory.write m a v) b = if b = a then some v else Memory.read m b := by
  split
  · next h => rw [h, Memory.read_write_same]
  · next h => exact Memory.read_write_other m v h

/-- The entries after a write are the written one and old ones. -/
theorem Memory.mem_write {n : Nat} {m : Memory n} {a : Nat} {v : BitVec n} {c : Nat × BitVec n}
    (h : c ∈ Memory.write m a v) : c = (a, v) ∨ c ∈ m := by
  induction m with
  | nil => simpa [Memory.write] using h
  | cons e m ih =>
    simp only [Memory.write] at h
    split at h
    · simpa using h
    · split at h
      · rcases List.mem_cons.1 h with h | h
        · exact .inl h
        · exact .inr (List.mem_cons_of_mem _ h)
      · rcases List.mem_cons.1 h with h | h
        · exact .inr (h ▸ List.mem_cons_self)
        · exact (ih h).imp_right (List.mem_cons_of_mem _)

/-- A write keeps the canonical form. -/
theorem Memory.write_wf {n : Nat} {m : Memory n} (hm : Memory.wf m) (a : Nat) (v : BitVec n) :
    Memory.wf (Memory.write m a v) := by
  induction m with
  | nil => simp [Memory.write, Memory.wf]
  | cons e m ih =>
    have hcons := List.pairwise_cons.1 hm
    simp only [Memory.write]
    split
    · next hlt =>
      refine List.pairwise_cons.2 ⟨fun c hc => ?_, hm⟩
      rcases List.mem_cons.1 hc with hc | hc
      · simpa [hc] using hlt
      · exact lt_trans hlt (hcons.1 c hc)
    · split
      · next heq => exact List.pairwise_cons.2 ⟨by simpa [heq] using hcons.1, hcons.2⟩
      · next hlt hne =>
        refine List.pairwise_cons.2 ⟨fun c hc => ?_, ih hcons.2⟩
        rcases Memory.mem_write hc with hc | hc
        · subst hc; simp only; omega
        · exact hcons.1 c hc

/-- Every listed address satisfies `P` after a write if it did before and the written one does. -/
theorem Memory.write_all {n : Nat} {m : Memory n} {P : Nat → Prop} (hm : ∀ c ∈ m, P c.1) {a : Nat}
    (ha : P a) (v : BitVec n) : ∀ c ∈ Memory.write m a v, P c.1 := by
  intro c hc
  rcases Memory.mem_write hc with hc | hc
  · exact hc ▸ ha
  · exact hm c hc

theorem Memory.read_none_of_lt {n : Nat} {m : Memory n} {a : Nat} (h : ∀ c ∈ m, a < c.1) :
    Memory.read m a = none := by
  induction m with
  | nil => rfl
  | cons c m ih =>
    have := h c List.mem_cons_self
    rw [Memory.read, if_neg (by omega)]
    exact ih fun c hc => h c (List.mem_cons_of_mem _ hc)

/-- Canonical memories with the same reads are equal. -/
theorem Memory.ext_of_wf {n : Nat} {m m' : Memory n} (hm : Memory.wf m) (hm' : Memory.wf m')
    (h : ∀ a, Memory.read m a = Memory.read m' a) : m = m' := by
  induction m generalizing m' with
  | nil =>
    cases m' with
    | nil => rfl
    | cons c m' => simpa [Memory.read] using h c.1
  | cons c m ih =>
    cases m' with
    | nil => simpa [Memory.read] using h c.1
    | cons c' m' =>
      obtain ⟨k, v⟩ := c
      obtain ⟨k', v'⟩ := c'
      have h1 := List.pairwise_cons.1 hm
      have h2 := List.pairwise_cons.1 hm'
      have hk : k = k' := by
        rcases Nat.lt_trichotomy k k' with hlt | heq | hgt
        · have := h k
          rw [Memory.read, if_pos rfl, Memory.read, if_neg (by omega), Memory.read_none_of_lt
            fun c hc => lt_trans hlt (h2.1 c hc)] at this
          cases this
        · exact heq
        · have := h k'
          rw [Memory.read, if_neg (by omega), Memory.read, if_pos rfl, Memory.read_none_of_lt
            fun c hc => lt_trans hgt (h1.1 c hc)] at this
          cases this
      subst hk
      have hv : v = v' := by simpa [Memory.read] using h k
      subst hv
      rw [ih h1.2 h2.2]
      intro a
      by_cases ha : a = k
      · subst ha
        rw [Memory.read_none_of_lt h1.1, Memory.read_none_of_lt h2.1]
      · simpa [Memory.read, ha] using h a

/-- Writes of canonical memories at different addresses commute. -/
theorem Memory.write_comm {n : Nat} {m : Memory n} (hm : Memory.wf m) {a b : Nat} (h : a ≠ b)
    (v w : BitVec n) :
    Memory.write (Memory.write m a v) b w = Memory.write (Memory.write m b w) a v := by
  refine Memory.ext_of_wf (Memory.write_wf (Memory.write_wf hm _ _) _ _)
    (Memory.write_wf (Memory.write_wf hm _ _) _ _) fun k => ?_
  simp only [Memory.read_write]
  by_cases hb : k = b <;> by_cases ha : k = a <;> simp_all

/-- The last of two writes to one address stands. -/
theorem Memory.write_write {n : Nat} {m : Memory n} (hm : Memory.wf m) (a : Nat) (v w : BitVec n) :
    Memory.write (Memory.write m a v) a w = Memory.write m a w := by
  refine Memory.ext_of_wf (Memory.write_wf (Memory.write_wf hm _ _) _ _)
    (Memory.write_wf hm _ _) fun k => ?_
  simp only [Memory.read_write]
  by_cases ha : k = a <;> simp [ha]

/-! ### Grid cells -/

/-- The key of a cell determines it, for rows below 2^16. -/
theorem cellAddr_inj {x y x' y' : Nat} (hy : y < 65536) (hy' : y' < 65536) :
    cellAddr x y = cellAddr x' y' ↔ x = x' ∧ y = y' := by
  unfold cellAddr; omega

theorem cellAddr_div {x y : Nat} (hy : y < 65536) : cellAddr x y / 65536 = x := by
  unfold cellAddr; omega

theorem cellAddr_mod {x y : Nat} (hy : y < 65536) : cellAddr x y % 65536 = y := by
  unfold cellAddr; omega

theorem gridRead_gridWrite_same (g : Memory 24) (x y : Nat) (v : Pixel) :
    gridRead (gridWrite g x y v) x y = some v := Memory.read_write_same _ _ _

theorem gridRead_gridWrite_other (g : Memory 24) {x y x' y' : Nat} (v : Pixel) (hy : y < 65536)
    (hy' : y' < 65536) (h : x' ≠ x ∨ y' ≠ y) :
    gridRead (gridWrite g x y v) x' y' = gridRead g x' y' := by
  refine Memory.read_write_other _ _ fun e => ?_
  have := (cellAddr_inj hy' hy).1 e
  omega

/-! ### Writing a run of bytes -/

/-- What `bufWriteAll` leaves at an address: the listed byte in its range, the old one outside. -/
theorem read_bufWriteAll (m : Memory 8) (a : Nat) (vs : List Byte) (k : Nat) :
    Memory.read (bufWriteAll m a vs) k =
      if a ≤ k ∧ k < a + vs.length then vs[k - a]? else Memory.read m k := by
  induction vs generalizing m a with
  | nil => simp only [bufWriteAll, List.length_nil]; rw [if_neg (by omega)]
  | cons v vs ih =>
    rw [bufWriteAll, ih, List.length_cons]
    by_cases hk : k = a
    · subst hk
      rw [if_neg (by omega), if_pos (by omega), Memory.read_write_same, Nat.sub_self]
      rfl
    · rw [Memory.read_write_other _ _ hk]
      by_cases h : a + 1 ≤ k ∧ k < a + 1 + vs.length
      · rw [if_pos h, if_pos (by omega), show k - a = (k - (a + 1)) + 1 by omega]
        rfl
      · rw [if_neg h, if_neg (by omega)]

theorem bufWriteAll_wf {m : Memory 8} (hm : Memory.wf m) (a : Nat) (vs : List Byte) :
    Memory.wf (bufWriteAll m a vs) := by
  induction vs generalizing m a with
  | nil => exact hm
  | cons v vs ih => exact ih (Memory.write_wf hm a v) (a + 1)

theorem bufWriteAll_all {m : Memory 8} {P : Nat → Prop} (hm : ∀ c ∈ m, P c.1) (a : Nat)
    (vs : List Byte) (h : ∀ k, a ≤ k → k < a + vs.length → P k) :
    ∀ c ∈ bufWriteAll m a vs, P c.1 := by
  induction vs generalizing m a with
  | nil => exact hm
  | cons v vs ih =>
    refine ih (Memory.write_all hm (h a (le_refl a) (by simp)) v) (a + 1) fun k h1 h2 => ?_
    exact h k (by omega) (by simp only [List.length_cons]; omega)

end Sys2Proof.Machine
end

