-- ==== Sys2Proof/Laws/Planner.lean ====
section
/-! SUPPORT. The capacity check and the bit planner: when the frame fits, the Coordinate Sequence as
a bijection and as the loop nest, and the bits of the frame. -/

namespace Sys2Proof.Machine

/-! ### Capacity -/

/-- The payload fits exactly when the frame fits the Coordinate Sequence (R101, R102). -/
theorem fits_iff (len : Nat) (d : Dims) : fits len d ↔ frameBits len ≤ 3 * d.w * d.h := by
  unfold fits capacity frameBits
  generalize 3 * d.w * d.h = n
  omega

theorem area_mono {d e : Dims} (hw : d.w ≤ e.w) (hh : d.h ≤ e.h) :
    3 * d.w * d.h ≤ 3 * e.w * e.h := Nat.mul_le_mul (Nat.mul_le_mul_left 3 hw) hh

/-- `cap` is monotone (R103). -/
theorem capacity_mono {d e : Dims} (hw : d.w ≤ e.w) (hh : d.h ≤ e.h) :
    capacity d ≤ capacity e := by
  have := area_mono hw hh
  unfold capacity
  generalize 3 * d.w * d.h = n at *
  generalize 3 * e.w * e.h = m at *
  omega

/-- The range of `cap` over valid dimensions (R100). -/
theorem capacity_range {s : State} {d : Dims} (h : s.validDims d) :
    -4 ≤ capacity d ∧ capacity d ≤ 1610563580 := by
  obtain ⟨_, _, hw, hh⟩ := State.validDims_lt h
  have := capacity_mono (d := d) (e := { w := 65535, h := 65535 }) (Nat.le_of_lt_succ hw)
    (Nat.le_of_lt_succ hh)
  have h2 : capacity { w := 65535, h := 65535 } = 1610563580 := by decide
  unfold capacity at *
  omega

/-- CAP, as a signed number, is the capacity (R32, R82). -/
theorem capWord_toInt {s : State} {d : Dims} (h : s.validDims d) :
    (BitVec.ofInt 32 (capacity d)).toInt = capacity d := by
  have := capacity_range h
  rw [BitVec.toInt_ofInt]
  apply Int.bmod_eq_of_le <;> norm_num <;> omega

/-- Every length that fits a legal build lies in the payload buffers (R103). -/
theorem len_le_pbufBytes {s : State} {d : Dims} (hp : s.params.legal) (h : s.validDims d) {len : Nat}
    (hf : fits len d) : len ≤ s.pbufBytes := by
  have hm := area_mono (d := d) (e := { w := s.gridMaxW, h := s.gridMaxH }) h.1.2 h.2.2
  have hb : 3 * s.gridMaxW * s.gridMaxH / 8 - 4 ≤ s.pbufBytes := hp.2.2.1
  rw [fits_iff] at hf
  unfold frameBits at hf
  simp only at hm
  generalize 3 * d.w * d.h = n at *
  generalize 3 * s.gridMaxW * s.gridMaxH = m at *
  omega

/-! ### The Coordinate Sequence -/

theorem channelOfCode_code (c : Channel) : channelOfCode c.code.toNat = c := by cases c <;> rfl

theorem code_channelOfCode {n : Nat} (h : n < 3) : (channelOfCode n).code.toNat = n := by
  have : n = 0 ∨ n = 1 ∨ n = 2 := by omega
  rcases this with rfl | rfl | rfl <;> rfl

theorem Channel.code_lt (c : Channel) : c.code.toNat < 3 := by cases c <;> decide

theorem Channel.code_inj {c e : Channel} : c.code.toNat = e.code.toNat ↔ c = e := by
  cases c <;> cases e <;> decide

/-- The linear index of a coordinate (R86). -/
def coordIndex (d : Dims) (p : Coord) : Nat := p.c.code.toNat * (d.w * d.h) + (p.x * d.h + p.y)

theorem coordIndex_lt {d : Dims} {p : Coord} (hx : p.x < d.w) (hy : p.y < d.h) :
    p.x * d.h + p.y < d.w * d.h ∧ coordIndex d p < 3 * d.w * d.h := by
  have h1 : (p.x + 1) * d.h ≤ d.w * d.h := Nat.mul_le_mul_right _ hx
  have h2 : p.c.code.toNat * (d.w * d.h) ≤ 2 * (d.w * d.h) :=
    Nat.mul_le_mul_right _ (Nat.le_of_lt_succ (Channel.code_lt p.c))
  rw [Nat.add_mul, Nat.one_mul] at h1
  unfold coordIndex
  rw [Nat.mul_assoc 3]
  omega

/-- `coord` inverts the index (R86, R111). -/
theorem coord_coordIndex {d : Dims} {p : Coord} (hx : p.x < d.w) (hy : p.y < d.h) :
    coord d (coordIndex d p) = p := by
  have h1 := (coordIndex_lt hx hy).1
  have hn : 0 < d.w * d.h := Nat.pos_of_ne_zero (by omega)
  have hdiv : coordIndex d p / (d.w * d.h) = p.c.code.toNat := by
    rw [coordIndex, Nat.mul_comm, Nat.mul_add_div hn, Nat.div_eq_of_lt h1, Nat.add_zero]
  have hmod : coordIndex d p % (d.w * d.h) = p.x * d.h + p.y := by
    rw [coordIndex, Nat.mul_comm, Nat.mul_add_mod, Nat.mod_eq_of_lt h1]
  have hx' : (p.x * d.h + p.y) / d.h = p.x := by
    rw [Nat.mul_comm, Nat.mul_add_div (by omega), Nat.div_eq_of_lt hy, Nat.add_zero]
  have hy' : (p.x * d.h + p.y) % d.h = p.y := by
    rw [Nat.mul_comm, Nat.mul_add_mod, Nat.mod_eq_of_lt hy]
  unfold coord
  rw [hdiv, hmod, hx', hy', channelOfCode_code]

/-- Every coordinate of the sequence lies in the grid (R110). -/
theorem coord_bounds {d : Dims} {i : Nat} (hi : i < 3 * d.w * d.h) :
    (coord d i).x < d.w ∧ (coord d i).y < d.h ∧
      (coord d i).c.code.toNat = i / (d.w * d.h) := by
  have hn : 0 < d.w * d.h := by
    rw [Nat.mul_assoc] at hi; exact Nat.pos_of_ne_zero fun e => by rw [e] at hi; omega
  have hh : 0 < d.h := Nat.pos_of_ne_zero fun e => by rw [e] at hn; omega
  refine ⟨?_, Nat.mod_lt _ hh, ?_⟩
  · exact (Nat.div_lt_iff_lt_mul hh).2 (Nat.mod_lt _ hn)
  · refine code_channelOfCode ?_
    rw [Nat.div_lt_iff_lt_mul hn]
    rwa [Nat.mul_assoc] at hi

/-- The index inverts `coord` (R86, R111). -/
theorem coordIndex_coord {d : Dims} {i : Nat} (hi : i < 3 * d.w * d.h) :
    coordIndex d (coord d i) = i := by
  unfold coordIndex
  rw [(coord_bounds hi).2.2]
  simp only [coord]
  rw [Nat.mul_comm (_ / d.h), Nat.div_add_mod, Nat.mul_comm, Nat.div_add_mod]

theorem coord_injOn {d : Dims} {i j : Nat} (hi : i < 3 * d.w * d.h) (hj : j < 3 * d.w * d.h)
    (h : coord d i = coord d j) : i = j := by
  rw [← coordIndex_coord hi, h, coordIndex_coord hj]

/-- The cells of a grid (R132). -/
theorem mem_cellsOf {d : Dims} {xy : Nat × Nat} : xy ∈ cellsOf d ↔ xy.1 < d.w ∧ xy.2 < d.h := by
  obtain ⟨x, y⟩ := xy
  simp [cellsOf]

/-! ### The frame -/

/-- A prefix bit of the frame: bit k is L[31 - k] (R114). -/
theorem frameBit_prefix (len : Word) (pin : Memory 8) {k : Nat} (hk : k < 32) :
    frameBit len pin k = some (len.getLsbD (31 - k)) := by
  have hb : k % 8 < 8 := Nat.mod_lt _ (by omega)
  have h4 : k / 8 = 0 ∨ k / 8 = 1 ∨ k / 8 = 2 ∨ k / 8 = 3 := by omega
  unfold frameBit
  rcases h4 with h | h | h | h <;>
  · rw [h, frameByte, Option.map_some, and_bitMask_ne_zero _ hb, BitVec.getLsbD_extractLsb']
    rw [decide_eq_true (by omega), Bool.true_and]
    congr 2
    omega

/-- A payload bit of the frame (R85, R115). -/
theorem frameBit_payload (len : Word) (pin : Memory 8) {k : Nat} (hk : 32 ≤ k) :
    frameBit len pin k = (bufRead pin ((k - 32) / 8)).map fun f => f.getLsbD (7 - k % 8) := by
  have hb : k % 8 < 8 := Nat.mod_lt _ (by omega)
  have h : k / 8 = (k - 32) / 8 + 4 := by omega
  unfold frameBit
  rw [h, frameByte]
  congr 1
  funext f
  exact and_bitMask_ne_zero f hb

/-- A frame bit has no value only where its payload byte has none (R115). -/
theorem frameBit_isSome (len : Word) (pin : Memory 8) (k : Nat) :
    (frameBit len pin k).isSome = true ↔ (32 ≤ k → (bufRead pin ((k - 32) / 8)).isSome = true) := by
  by_cases hk : k < 32
  · rw [frameBit_prefix len pin hk]
    simp; omega
  · rw [frameBit_payload len pin (by omega), Option.isSome_map]
    simp [show 32 ≤ k by omega]

end Sys2Proof.Machine
end

