-- ==== Sys2Proof/Laws/Encode.lean ====
section
/-! SUPPORT. What ENCODE's two loops do: the copy, cell by cell, and the toggles, lane by lane. -/

namespace Sys2Proof.Machine

/-! ### One toggle -/

theorem toggleCell_eq_some {g g' : Memory 24} {c : Channel} {x y : Nat} :
    toggleCell g c x y = some g' ↔
      ∃ p, gridRead g x y = some p ∧ g' = gridWrite g x y (toggle p c) := by
  simp [toggleCell, eq_comm]

theorem toggleCell_eq_none {g : Memory 24} {c : Channel} {x y : Nat} :
    toggleCell g c x y = none ↔ gridRead g x y = none := by simp [toggleCell]

theorem toggleCell_read_other {g g' : Memory 24} {c : Channel} {x y k : Nat}
    (h : toggleCell g c x y = some g') (hk : k ≠ cellAddr x y) :
    Memory.read g' k = Memory.read g k := by
  obtain ⟨p, -, rfl⟩ := toggleCell_eq_some.1 h
  exact Memory.read_write_other _ _ hk

theorem toggleCell_wf {g g' : Memory 24} {c : Channel} {x y : Nat}
    (h : toggleCell g c x y = some g') (hg : Memory.wf g) : Memory.wf g' := by
  obtain ⟨p, -, rfl⟩ := toggleCell_eq_some.1 h
  exact Memory.write_wf hg _ _

theorem toggleCell_all {g g' : Memory 24} {c : Channel} {x y : Nat} {P : Nat → Prop}
    (h : toggleCell g c x y = some g') (hg : ∀ e ∈ g, P e.1) (ha : P (cellAddr x y)) :
    ∀ e ∈ g', P e.1 := by
  obtain ⟨p, -, rfl⟩ := toggleCell_eq_some.1 h
  exact Memory.write_all hg ha _

/-! ### The copy -/

theorem copyCell_eq_some {a b g : Memory 24} {xy : Nat × Nat} :
    copyCell a b xy = some g ↔
      ∃ v, gridRead a xy.1 xy.2 = some v ∧ g = gridWrite b xy.1 xy.2 v := by
  simp [copyCell, eq_comm]

theorem copyCells_nil (a b : Memory 24) : copyCells a [] b = some b := rfl

theorem copyCells_cons (a b : Memory 24) (xy : Nat × Nat) (l : List (Nat × Nat)) :
    copyCells a (xy :: l) b = (copyCell a b xy).bind (copyCells a l) := by
  simp [copyCells, List.foldlM_cons]; rfl

/-- The copy completes exactly when every listed cell of A holds a value. -/
theorem copyCells_isSome (a b : Memory 24) (l : List (Nat × Nat)) :
    (copyCells a l b).isSome = true ↔ ∀ xy ∈ l, (gridRead a xy.1 xy.2).isSome = true := by
  induction l generalizing b with
  | nil => simp [copyCells_nil]
  | cons xy l ih =>
    rw [copyCells_cons, List.forall_mem_cons]
    cases h : gridRead a xy.1 xy.2 with
    | none => simp [copyCell, h]
    | some v => simp [copyCell, h, ih]

/-- The copy leaves A's value in the listed cells and B's elsewhere. -/
theorem copyCells_read {a b g : Memory 24} {l : List (Nat × Nat)} (h : copyCells a l b = some g)
    (k : Nat) :
    ((∃ xy ∈ l, k = cellAddr xy.1 xy.2) → Memory.read g k = Memory.read a k) ∧
      ((∀ xy ∈ l, k ≠ cellAddr xy.1 xy.2) → Memory.read g k = Memory.read b k) := by
  induction l generalizing b with
  | nil => cases h; simp
  | cons xy l ih =>
    rw [copyCells_cons, Option.bind_eq_some_iff] at h
    obtain ⟨b', hb', h⟩ := h
    obtain ⟨v, hv, rfl⟩ := copyCell_eq_some.1 hb'
    have ih := ih h
    constructor
    · rintro ⟨e, he, hk⟩
      by_cases hl : ∃ xy ∈ l, k = cellAddr xy.1 xy.2
      · exact ih.1 hl
      · push Not at hl
        rw [ih.2 hl]
        rcases List.mem_cons.1 he with rfl | he
        · rw [hk, gridWrite, Memory.read_write_same]
          exact hv.symm
        · exact absurd hk (hl e he)
    · intro hk
      rw [ih.2 fun e he => hk e (List.mem_cons_of_mem _ he), gridWrite,
        Memory.read_write_other _ _ (hk xy List.mem_cons_self)]

theorem copyCells_wf {a b g : Memory 24} {l : List (Nat × Nat)} (h : copyCells a l b = some g)
    (hb : Memory.wf b) : Memory.wf g := by
  induction l generalizing b with
  | nil => cases h; exact hb
  | cons xy l ih =>
    rw [copyCells_cons, Option.bind_eq_some_iff] at h
    obtain ⟨b', hb', h⟩ := h
    obtain ⟨v, -, rfl⟩ := copyCell_eq_some.1 hb'
    exact ih h (Memory.write_wf hb _ _)

theorem copyCells_all {a b g : Memory 24} {l : List (Nat × Nat)} {P : Nat → Prop}
    (h : copyCells a l b = some g) (hb : ∀ e ∈ b, P e.1)
    (hl : ∀ xy ∈ l, P (cellAddr xy.1 xy.2)) : ∀ e ∈ g, P e.1 := by
  induction l generalizing b with
  | nil => cases h; exact hb
  | cons xy l ih =>
    rw [copyCells_cons, Option.bind_eq_some_iff] at h
    obtain ⟨b', hb', h⟩ := h
    obtain ⟨v, -, rfl⟩ := copyCell_eq_some.1 hb'
    exact ih h (Memory.write_all hb (hl xy List.mem_cons_self) _)
      fun e he => hl e (List.mem_cons_of_mem _ he)

/-! ### The toggles -/

theorem embedBit_of_true {d : Dims} {len : Word} {pin : Memory 8} {b : Memory 24} {k : Nat}
    (h : frameBit len pin k = some true) :
    embedBit d len pin b k = toggleCell b (coord d k).c (coord d k).x (coord d k).y := by
  simp [embedBit, mapBit, h]

theorem embedBit_of_false {d : Dims} {len : Word} {pin : Memory 8} {b : Memory 24} {k : Nat}
    (h : frameBit len pin k = some false) : embedBit d len pin b k = some b := by
  simp [embedBit, mapBit, h]

theorem embedBit_of_none {d : Dims} {len : Word} {pin : Memory 8} {b : Memory 24} {k : Nat}
    (h : frameBit len pin k = none) : embedBit d len pin b k = none := by
  simp [embedBit, mapBit, h]

/-- What one iteration can do: nothing where the bit is 0, one toggle where it is 1. -/
theorem embedBit_cases {d : Dims} {len : Word} {pin : Memory 8} {b g : Memory 24} {k : Nat}
    (h : embedBit d len pin b k = some g) :
    (frameBit len pin k = some false ∧ g = b) ∨
      (frameBit len pin k = some true ∧
        toggleCell b (coord d k).c (coord d k).x (coord d k).y = some g) := by
  cases hf : frameBit len pin k with
  | none => rw [embedBit_of_none hf] at h; cases h
  | some t =>
    cases t with
    | false => rw [embedBit_of_false hf] at h; exact .inl ⟨rfl, (Option.some.inj h).symm⟩
    | true => rw [embedBit_of_true hf] at h; exact .inr ⟨rfl, h⟩

theorem embedBits_nil (d : Dims) (len : Word) (pin : Memory 8) (b : Memory 24) :
    embedBits d len pin [] b = some b := rfl

theorem embedBits_cons (d : Dims) (len : Word) (pin : Memory 8) (b : Memory 24) (k : Nat)
    (ks : List Nat) :
    embedBits d len pin (k :: ks) b = (embedBit d len pin b k).bind (embedBits d len pin ks) := by
  simp [embedBits, List.foldlM_cons]; rfl

/-- A relation kept by every toggle is kept by the loop. -/
theorem embedBits_induct {d : Dims} {len : Word} {pin : Memory 8} {P : Memory 24 → Prop}
    {ks : List Nat} {b g : Memory 24} (h : embedBits d len pin ks b = some g) (hb : P b)
    (step : ∀ k ∈ ks, ∀ m m', P m →
      toggleCell m (coord d k).c (coord d k).x (coord d k).y = some m' → P m') : P g := by
  induction ks generalizing b with
  | nil => cases h; exact hb
  | cons k ks ih =>
    rw [embedBits_cons, Option.bind_eq_some_iff] at h
    obtain ⟨b', hb', h⟩ := h
    refine ih h ?_ fun j hj => step j (List.mem_cons_of_mem _ hj)
    rcases embedBit_cases hb' with ⟨-, rfl⟩ | ⟨-, ht⟩
    · exact hb
    · exact step k List.mem_cons_self _ _ hb ht

/-- The loop keeps which cells hold a value. -/
theorem embedBits_isSome_read {d : Dims} {len : Word} {pin : Memory 8} {ks : List Nat}
    {b g : Memory 24} (h : embedBits d len pin ks b = some g) (k : Nat) :
    (Memory.read g k).isSome = (Memory.read b k).isSome := by
  refine embedBits_induct (P := fun m => (Memory.read m k).isSome = (Memory.read b k).isSome) h rfl
    fun j _ m m' hm ht => ?_
  rw [← hm]
  by_cases hk : k = cellAddr (coord d j).x (coord d j).y
  · obtain ⟨p, hp, rfl⟩ := toggleCell_eq_some.1 ht
    rw [hk, gridWrite, Memory.read_write_same]
    unfold gridRead at hp
    rw [hp]; rfl
  · rw [toggleCell_read_other ht hk]

/-- The loop completes exactly when every listed frame bit has a value and every cell whose bit is 1
holds one. -/
theorem embedBits_isSome (d : Dims) (len : Word) (pin : Memory 8) (ks : List Nat) (b : Memory 24) :
    (embedBits d len pin ks b).isSome = true ↔
      ∀ k ∈ ks, (frameBit len pin k).isSome = true ∧
        (frameBit len pin k = some true →
          (gridRead b (coord d k).x (coord d k).y).isSome = true) := by
  induction ks generalizing b with
  | nil => simp [embedBits_nil]
  | cons k ks ih =>
    rw [embedBits_cons, List.forall_mem_cons]
    cases hf : frameBit len pin k with
    | none => simp [embedBit_of_none hf]
    | some t =>
      cases t with
      | false => simp [embedBit_of_false hf, ih]
      | true =>
        rw [embedBit_of_true hf]
        cases ht : toggleCell b (coord d k).c (coord d k).x (coord d k).y with
        | none => simp [toggleCell_eq_none.1 ht]
        | some b' =>
          obtain ⟨p, hp, -⟩ := toggleCell_eq_some.1 ht
          have hsame : ∀ x y, (gridRead b' x y).isSome = (gridRead b x y).isSome := fun x y => by
            have := embedBits_isSome_read (d := d) (len := len) (pin := pin) (ks := [k])
              (b := b) (g := b') (by rw [embedBits_cons, embedBit_of_true hf, ht]; rfl)
              (cellAddr x y)
            exact this
          simp [ih, hp, hsame]

/-- Cells that no listed coordinate names keep their value. -/
theorem embedBits_read_other {d : Dims} {len : Word} {pin : Memory 8} {ks : List Nat}
    {b g : Memory 24} (h : embedBits d len pin ks b = some g) {k : Nat}
    (hk : ∀ j ∈ ks, k ≠ cellAddr (coord d j).x (coord d j).y) :
    Memory.read g k = Memory.read b k := by
  refine embedBits_induct (P := fun m => Memory.read m k = Memory.read b k) h rfl
    fun j hj m m' hm ht => ?_
  rw [toggleCell_read_other ht (hk j hj), hm]

/-- Coordinate (c, x, y) is paired with a 1 bit of the frame at one of the listed indices. -/
def hit (d : Dims) (len : Word) (pin : Memory 8) (ks : List Nat) (c : Channel) (x y : Nat) : Prop :=
  ∃ k ∈ ks, coord d k = { c := c, x := x, y := y } ∧ frameBit len pin k = some true

theorem hit_cons {d : Dims} {len : Word} {pin : Memory 8} {k : Nat} {ks : List Nat} {c : Channel}
    {x y : Nat} :
    hit d len pin (k :: ks) c x y ↔
      (coord d k = { c := c, x := x, y := y } ∧ frameBit len pin k = some true) ∨
        hit d len pin ks c x y := by simp [hit]

/-- The toggles, lane by lane (R134, R135): a lane differs in its bit 0 where the frame bit is 1, and
does not differ elsewhere. -/
theorem embedBits_lane {d : Dims} {len : Word} {pin : Memory 8} {ks : List Nat} {b g : Memory 24}
    (hd : d.h < 65536) (hnd : ks.Nodup) (hks : ∀ k ∈ ks, k < 3 * d.w * d.h)
    (h : embedBits d len pin ks b = some g) {x y : Nat} (hy : y < d.h) {p : Pixel}
    (hp : gridRead b x y = some p) :
    ∃ q, gridRead g x y = some q ∧ ∀ c,
      (hit d len pin ks c x y → (p ^^^ q) &&& decMask c = encMask c) ∧
        (¬ hit d len pin ks c x y → (p ^^^ q) &&& decMask c = 0) := by
  induction ks generalizing b p with
  | nil =>
    cases h
    exact ⟨p, hp, fun c => ⟨fun ⟨k, hk, _⟩ => absurd hk (List.not_mem_nil), fun _ => by simp⟩⟩
  | cons k ks ih =>
    rw [embedBits_cons, Option.bind_eq_some_iff] at h
    obtain ⟨b', hb', h⟩ := h
    have hnd' := List.nodup_cons.1 hnd
    have hks' : ∀ j ∈ ks, j < 3 * d.w * d.h := fun j hj => hks j (List.mem_cons_of_mem _ hj)
    have hklt := hks k List.mem_cons_self
    rcases embedBit_cases hb' with ⟨hf, rfl⟩ | ⟨hf, ht⟩
    · obtain ⟨q, hq, hl⟩ := ih hnd'.2 hks' h hp
      refine ⟨q, hq, fun c => ?_⟩
      have : hit d len pin (k :: ks) c x y ↔ hit d len pin ks c x y := by
        rw [hit_cons, hf]; simp
      rw [this]
      exact hl c
    · obtain ⟨r, hr, rfl⟩ := toggleCell_eq_some.1 ht
      by_cases hxy : (coord d k).x = x ∧ (coord d k).y = y
      · obtain ⟨rfl, rfl⟩ := hxy
        rw [hp] at hr
        cases hr
        obtain ⟨q, hq, hl⟩ := ih hnd'.2 hks' h (gridRead_gridWrite_same _ _ _ _)
        refine ⟨q, hq, fun c => ?_⟩
        have hsplit : (p ^^^ q) &&& decMask c =
            ((toggle p (coord d k).c ^^^ q) &&& decMask c) ^^^
              (encMask (coord d k).c &&& decMask c) := by
          unfold toggle
          ext i hi
          simp only [BitVec.getElem_and, BitVec.getElem_xor]
          cases p[i] <;> cases q[i] <;> cases (decMask c)[i] <;>
            cases (encMask (coord d k).c)[i] <;> rfl
        rw [hsplit, encMask_and_decMask]
        by_cases hc : (coord d k).c = c
        · have hno : ¬ hit d len pin ks c (coord d k).x (coord d k).y := by
            rintro ⟨j, hj, hcj, -⟩
            have : coord d j = coord d k := by rw [hcj, ← hc]
            exact hnd'.1 (coord_injOn (hks' j hj) hklt this ▸ hj)
          have hyes : hit d len pin (k :: ks) c (coord d k).x (coord d k).y :=
            hit_cons.2 (.inl ⟨by rw [← hc], hf⟩)
          rw [if_pos hc, (hl c).2 hno]
          exact ⟨fun _ => by simp, fun hn => absurd hyes hn⟩
        · have : hit d len pin (k :: ks) c (coord d k).x (coord d k).y ↔
              hit d len pin ks c (coord d k).x (coord d k).y := by
            rw [hit_cons]
            refine or_iff_right fun ⟨e, _⟩ => hc ?_
            rw [e]
          rw [this, if_neg hc]
          simpa using hl c
      · have hky := (coord_bounds hklt).2.1
        have hsame : gridRead (gridWrite b (coord d k).x (coord d k).y
            (toggle r (coord d k).c)) x y = some p := by
          rw [gridRead_gridWrite_other _ _ (by omega) (by omega) (by omega), hp]
        obtain ⟨q, hq, hl⟩ := ih hnd'.2 hks' h hsame
        refine ⟨q, hq, fun c => ?_⟩
        have : hit d len pin (k :: ks) c x y ↔ hit d len pin ks c x y := by
          rw [hit_cons]
          refine or_iff_right fun ⟨e, _⟩ => hxy ?_
          rw [e]; exact ⟨rfl, rfl⟩
        rw [this]
        exact hl c

/-! ### Order -/

/-- Two iterations of the loop commute on canonical planes (R139). -/
theorem embedBit_comm {d : Dims} {len : Word} {pin : Memory 8} {b : Memory 24} (hb : Memory.wf b)
    (j k : Nat) :
    (embedBit d len pin b j).bind (fun m => embedBit d len pin m k) =
      (embedBit d len pin b k).bind (fun m => embedBit d len pin m j) := by
  cases hj : frameBit len pin j with
  | none =>
    cases hk : embedBit d len pin b k <;> simp [embedBit_of_none hj]
  | some tj =>
    cases hk : frameBit len pin k with
    | none => cases hj' : embedBit d len pin b j <;> simp [embedBit_of_none hk]
    | some tk =>
      cases tj with
      | false => simp [embedBit_of_false hj]
      | true =>
        cases tk with
        | false => simp [embedBit_of_false hk]
        | true =>
          simp only [embedBit_of_true hj, embedBit_of_true hk]
          generalize coord d j = p
          generalize coord d k = q
          by_cases hpq : cellAddr p.x p.y = cellAddr q.x q.y
          · unfold toggleCell gridRead gridWrite
            rw [hpq]
            cases Memory.read b (cellAddr q.x q.y) with
            | none => rfl
            | some v =>
              simp only [Option.map_some, Option.bind_some, Memory.read_write_same,
                Memory.write_write hb, toggle_comm v p.c q.c]
          · unfold toggleCell gridRead gridWrite
            cases hp : Memory.read b (cellAddr p.x p.y) with
            | none =>
              cases hq : Memory.read b (cellAddr q.x q.y) with
              | none => rfl
              | some w =>
                simp [Memory.read_write_other _ _ hpq, hp]
            | some v =>
              cases hq : Memory.read b (cellAddr q.x q.y) with
              | none => simp [Memory.read_write_other _ _ (Ne.symm hpq), hq]
              | some w =>
                simp only [Option.map_some, Option.bind_some,
                  Memory.read_write_other _ _ (Ne.symm hpq), Memory.read_write_other _ _ hpq, hp, hq,
                  Memory.write_comm hb hpq]

theorem embedBit_wf {d : Dims} {len : Word} {pin : Memory 8} {b g : Memory 24} {k : Nat}
    (h : embedBit d len pin b k = some g) (hb : Memory.wf b) : Memory.wf g := by
  rcases embedBit_cases h with ⟨-, rfl⟩ | ⟨-, ht⟩
  · exact hb
  · exact toggleCell_wf ht hb

theorem embedBits_wf {d : Dims} {len : Word} {pin : Memory 8} {ks : List Nat} {b g : Memory 24}
    (h : embedBits d len pin ks b = some g) (hb : Memory.wf b) : Memory.wf g :=
  embedBits_induct h hb fun _ _ _ _ hm ht => toggleCell_wf ht hm

/-! ### The encoded plane -/

theorem encodedGrid_eq_some {d : Dims} {len : Word} {pin : Memory 8} {a b g : Memory 24} :
    encodedGrid d len pin a b = some g ↔
      ∃ b', copyCells a (cellsOf d) b = some b' ∧
        embedBits d len pin (List.range (frameBits len.toNat)) b' = some g := by
  unfold encodedGrid
  cases copyCells a (cellsOf d) b <;> simp

/-- The coordinates of the frame lie in the grid. -/
theorem coord_of_fits {d : Dims} {n k : Nat} (hf : fits n d) (hk : k < frameBits n) :
    k < 3 * d.w * d.h ∧ (coord d k).x < d.w ∧ (coord d k).y < d.h := by
  have := (fits_iff n d).1 hf
  have hk' : k < 3 * d.w * d.h := by omega
  exact ⟨hk', (coord_bounds hk').1, (coord_bounds hk').2.1⟩

/-- A payload byte is read by one of the frame's bits, and only such bytes are (R115). -/
theorem frameBits_isSome_iff (len : Word) (pin : Memory 8) :
    (∀ k, k < frameBits len.toNat → (frameBit len pin k).isSome = true) ↔
      ∀ j, j < len.toNat → (bufRead pin j).isSome = true := by
  unfold frameBits
  constructor
  · intro h j hj
    have := (frameBit_isSome len pin (32 + 8 * j)).1 (h _ (by omega)) (by omega)
    rwa [show (32 + 8 * j - 32) / 8 = j by omega] at this
  · intro h k hk
    exact (frameBit_isSome len pin k).2 fun h32 => h _ (by omega)

/-- ENCODE's work completes exactly when every cell of A in range and every payload byte holds a
value (R132). -/
theorem encodedGrid_isSome {d : Dims} {len : Word} {pin : Memory 8} {a b : Memory 24}
    (hf : fits len.toNat d) :
    (encodedGrid d len pin a b).isSome = true ↔
      (∀ x y, x < d.w → y < d.h → (gridRead a x y).isSome = true) ∧
        ∀ j, j < len.toNat → (bufRead pin j).isSome = true := by
  rw [← frameBits_isSome_iff]
  have hcopy := copyCells_isSome a b (cellsOf d)
  have hcells : (∀ xy ∈ cellsOf d, (gridRead a xy.1 xy.2).isSome = true) ↔
      ∀ x y, x < d.w → y < d.h → (gridRead a x y).isSome = true :=
    ⟨fun h x y hx hy => h (x, y) (mem_cellsOf.2 ⟨hx, hy⟩),
      fun h xy hxy => h _ _ (mem_cellsOf.1 hxy).1 (mem_cellsOf.1 hxy).2⟩
  rw [hcells] at hcopy
  unfold encodedGrid
  cases hc : copyCells a (cellsOf d) b with
  | none =>
    rw [hc] at hcopy
    simp only [Option.isSome_none, Bool.false_eq_true, false_iff] at hcopy ⊢
    exact fun h => hcopy h.1
  | some b' =>
    rw [hc] at hcopy
    have hA := hcopy.1 rfl
    simp only [embedBits_isSome, List.mem_range]
    constructor
    · exact fun h => ⟨hA, fun k hk => (h k hk).1⟩
    · intro h k hk
      refine ⟨h.2 k hk, fun _ => ?_⟩
      obtain ⟨-, hx, hy⟩ := coord_of_fits hf hk
      have := (copyCells_read hc (cellAddr (coord d k).x (coord d k).y)).1
        ⟨((coord d k).x, (coord d k).y), mem_cellsOf.2 ⟨hx, hy⟩, rfl⟩
      unfold gridRead
      rw [this]
      exact hA _ _ hx hy

/-- The encoded plane, lane by lane, and outside the grid (R135). -/
theorem encodedGrid_read {d : Dims} {len : Word} {pin : Memory 8} {a b g : Memory 24}
    (hd : d.h < 65536) (hf : fits len.toNat d) (h : encodedGrid d len pin a b = some g) :
    (∀ x y, x < d.w → y < d.h → ∃ p q, gridRead a x y = some p ∧ gridRead g x y = some q ∧ ∀ c,
      (hit d len pin (List.range (frameBits len.toNat)) c x y →
        (p ^^^ q) &&& decMask c = encMask c) ∧
      (¬ hit d len pin (List.range (frameBits len.toNat)) c x y → (p ^^^ q) &&& decMask c = 0)) ∧
    ∀ k, (∀ x y, x < d.w → y < d.h → k ≠ cellAddr x y) → Memory.read g k = Memory.read b k := by
  have hsome := (encodedGrid_isSome (b := b) hf).1 (by rw [h]; rfl)
  obtain ⟨b', hc, he⟩ := encodedGrid_eq_some.1 h
  constructor
  · intro x y hx hy
    obtain ⟨p, hp⟩ := Option.isSome_iff_exists.1 (hsome.1 x y hx hy)
    have hb' : gridRead b' x y = some p := by
      unfold gridRead at hp ⊢
      rw [(copyCells_read hc _).1 ⟨(x, y), mem_cellsOf.2 ⟨hx, hy⟩, rfl⟩, hp]
    obtain ⟨q, hq, hl⟩ := embedBits_lane hd List.nodup_range
      (fun k hk => (coord_of_fits hf (List.mem_range.1 hk)).1) he hy hb'
    exact ⟨p, q, hp, hq, hl⟩
  · intro k hk
    rw [embedBits_read_other he, (copyCells_read hc k).2]
    · exact fun xy hxy => hk _ _ (mem_cellsOf.1 hxy).1 (mem_cellsOf.1 hxy).2
    · intro j hj
      obtain ⟨-, hx, hy⟩ := coord_of_fits hf (List.mem_range.1 hj)
      exact hk _ _ hx hy

theorem encodedGrid_wf {d : Dims} {len : Word} {pin : Memory 8} {a b g : Memory 24}
    (h : encodedGrid d len pin a b = some g) (hb : Memory.wf b) : Memory.wf g := by
  obtain ⟨b', hc, he⟩ := encodedGrid_eq_some.1 h
  exact embedBits_wf he (copyCells_wf hc hb)

theorem encodedGrid_all {d : Dims} {len : Word} {pin : Memory 8} {a b g : Memory 24}
    {P : Nat → Prop} (hf : fits len.toNat d) (h : encodedGrid d len pin a b = some g)
    (hb : ∀ e ∈ b, P e.1) (hP : ∀ x y, x < d.w → y < d.h → P (cellAddr x y)) :
    ∀ e ∈ g, P e.1 := by
  obtain ⟨b', hc, he⟩ := encodedGrid_eq_some.1 h
  refine embedBits_induct (P := fun m => ∀ e ∈ m, P e.1) he
    (copyCells_all hc hb fun xy hxy => hP _ _ (mem_cellsOf.1 hxy).1 (mem_cellsOf.1 hxy).2)
    fun k hk m m' hm ht => ?_
  obtain ⟨-, hx, hy⟩ := coord_of_fits hf (List.mem_range.1 hk)
  exact toggleCell_all ht hm (hP _ _ hx hy)

end Sys2Proof.Machine
end

