-- ==== Sys2Proof/Laws/Decode.lean ====
section
/-! SUPPORT. What DECODE recovers: bits, bytes, the prefix, and that the bits ENCODE embeds are the
bits it recovers. -/

namespace Sys2Proof.Machine

theorem readCellBit_eq_some {a b : Memory 24} {c : Channel} {x y : Nat} {t : Bool} :
    readCellBit a b c x y = some t ↔
      ∃ p q, gridRead a x y = some p ∧ gridRead b x y = some q ∧ t = readBit p q c := by
  unfold readCellBit
  cases gridRead a x y <;> cases gridRead b x y <;> simp [eq_comm]

theorem readCellBit_isSome {a b : Memory 24} {c : Channel} {x y : Nat} :
    (readCellBit a b c x y).isSome = true ↔
      (gridRead a x y).isSome = true ∧ (gridRead b x y).isSome = true := by
  unfold readCellBit
  cases gridRead a x y <;> cases gridRead b x y <;> simp

/-! ### Bytes -/

theorem recByte_unfold (d : Dims) (ga gb : Memory 24) (j : Nat) :
    recByte d ga gb j =
      (recByteStep d ga gb j 0 0).bind fun f =>
      (recByteStep d ga gb j f 1).bind fun f =>
      (recByteStep d ga gb j f 2).bind fun f =>
      (recByteStep d ga gb j f 3).bind fun f =>
      (recByteStep d ga gb j f 4).bind fun f =>
      (recByteStep d ga gb j f 5).bind fun f =>
      (recByteStep d ga gb j f 6).bind fun f => recByteStep d ga gb j f 7 := by
  unfold recByte
  rw [show List.range 8 = [0, 1, 2, 3, 4, 5, 6, 7] from rfl]
  simp only [List.foldlM_cons, List.foldlM_nil, Option.bind_eq_bind, Option.pure_def,
    Option.bind_fun_some]

/-- The OR of eight selected masks (R153). -/
def orMasks (t : Nat → Bool) : Byte :=
  (List.range 8).foldl (fun acc b => acc ||| if t b then bitMask b else 0) 0

theorem orMasks_getLsbD (t : Nat → Bool) {b : Nat} (hb : b < 8) :
    (orMasks t).getLsbD (7 - b) = t b := by
  have h : ∀ n, n < 8 → (bitMask n).getLsbD (7 - b) = decide (7 - b = 7 - n) :=
    fun n hn => bitMask_getLsbD hn _
  unfold orMasks
  rw [show List.range 8 = [0, 1, 2, 3, 4, 5, 6, 7] from rfl]
  simp only [List.foldl_cons, List.foldl_nil, BitVec.getLsbD_or]
  have hif : ∀ n, n < 8 → (if t n then bitMask n else 0).getLsbD (7 - b) =
      (t n && decide (7 - b = 7 - n)) := by
    intro n hn
    split
    · next e => rw [h n hn, e, Bool.true_and]
    · next e => simp [e]
  rw [hif 0 (by omega), hif 1 (by omega), hif 2 (by omega), hif 3 (by omega), hif 4 (by omega),
    hif 5 (by omega), hif 6 (by omega), hif 7 (by omega)]
  have hcases : b = 0 ∨ b = 1 ∨ b = 2 ∨ b = 3 ∨ b = 4 ∨ b = 5 ∨ b = 6 ∨ b = 7 := by omega
  rcases hcases with rfl | rfl | rfl | rfl | rfl | rfl | rfl | rfl <;> simp

/-- `recByte` when its eight bits have values. -/
theorem recByte_of_bits {d : Dims} {ga gb : Memory 24} {j : Nat} {t : Nat → Bool}
    (h : ∀ b, b < 8 → recBit d ga gb (8 * j + b) = some (t b)) :
    recByte d ga gb j = some (orMasks t) := by
  rw [recByte_unfold]
  simp only [recByteStep, h 0 (by omega), h 1 (by omega), h 2 (by omega), h 3 (by omega),
    h 4 (by omega), h 5 (by omega), h 6 (by omega), h 7 (by omega), Option.map_some,
    Option.bind_some]
  rfl

/-- `recByte` has a value exactly when its eight bits have. -/
theorem recByte_isSome {d : Dims} {ga gb : Memory 24} {j : Nat} :
    (recByte d ga gb j).isSome = true ↔
      ∀ b, b < 8 → (recBit d ga gb (8 * j + b)).isSome = true := by
  constructor
  · intro h
    by_contra hn
    push Not at hn
    obtain ⟨b, hb, hnone⟩ := hn
    have hnone : recBit d ga gb (8 * j + b) = none := by simpa using hnone
    rw [recByte_unfold] at h
    have hstep : ∀ f, recByteStep d ga gb j f b = none := fun f => by simp [recByteStep, hnone]
    have hcases : b = 0 ∨ b = 1 ∨ b = 2 ∨ b = 3 ∨ b = 4 ∨ b = 5 ∨ b = 6 ∨ b = 7 := by omega
    rcases hcases with rfl | rfl | rfl | rfl | rfl | rfl | rfl | rfl <;>
      simp [hstep] at h
  · intro h
    have : ∀ b, b < 8 → recBit d ga gb (8 * j + b) =
        some ((recBit d ga gb (8 * j + b)).getD false) := fun b hb => by
      obtain ⟨t, ht⟩ := Option.isSome_iff_exists.1 (h b hb)
      rw [ht]; rfl
    rw [recByte_of_bits (t := fun b => (recBit d ga gb (8 * j + b)).getD false) this]
    rfl

/-- A recovered byte, bit by bit (R153). -/
theorem recByte_bits {d : Dims} {ga gb : Memory 24} {j : Nat} {f : Byte}
    (h : recByte d ga gb j = some f) {b : Nat} (hb : b < 8) :
    recBit d ga gb (8 * j + b) = some (f.getLsbD (7 - b)) := by
  have hs := recByte_isSome.1 (by rw [h]; rfl)
  have : ∀ b, b < 8 → recBit d ga gb (8 * j + b) =
      some ((recBit d ga gb (8 * j + b)).getD false) := fun b hb => by
    obtain ⟨t, ht⟩ := Option.isSome_iff_exists.1 (hs b hb)
    rw [ht]; rfl
  have hf := recByte_of_bits (t := fun b => (recBit d ga gb (8 * j + b)).getD false) this
  rw [h] at hf
  rw [Option.some.inj hf, orMasks_getLsbD _ hb]
  exact this b hb

/-- A `mapM` over options has a value exactly when every application has, and lists them. -/
theorem mapM_eq_some {α β : Type} {f : α → Option β} {l : List α} {r : List β} :
    l.mapM f = some r ↔ l.map f = r.map some := by
  induction l generalizing r with
  | nil => cases r <;> simp
  | cons a l ih =>
    rw [List.mapM_cons]
    cases r with
    | nil =>
      cases f a with
      | none => simp
      | some v => cases l.mapM f <;> simp
    | cons v r =>
      rw [List.map_cons, List.map_cons, List.cons.injEq, ← ih]
      cases f a with
      | none => simp
      | some w => cases l.mapM f <;> simp

theorem recBytes_eq_some {d : Dims} {ga gb : Memory 24} {n : Nat} {ds : List Byte} :
    recBytes d ga gb n = some ds ↔
      ds.length = n ∧ ∀ j, j < n → recByte d ga gb j = some (ds.getD j 0) := by
  unfold recBytes
  rw [mapM_eq_some]
  constructor
  · intro h
    have hl : ds.length = n := by simpa using (congrArg List.length h).symm
    refine ⟨hl, fun j hj => ?_⟩
    have := congrArg (fun l => l[j]?) h
    simp only [List.getElem?_map, List.getElem?_range hj, Option.map_some] at this
    rw [List.getElem?_eq_getElem (by omega), Option.map_some] at this
    rw [Option.some.inj this, List.getD_eq_getElem _ _ (by omega)]
  · rintro ⟨hl, h⟩
    refine List.ext_getElem (by simpa using hl.symm) fun j h1 h2 => ?_
    simp only [List.length_map, List.length_range] at h1
    rw [List.getElem_map, List.getElem_range, List.getElem_map, h j h1,
      List.getD_eq_getElem _ _ (by omega)]

theorem recBytes_isSome {d : Dims} {ga gb : Memory 24} {n : Nat} :
    (recBytes d ga gb n).isSome = true ↔
      ∀ i, i < 8 * n → (recBit d ga gb i).isSome = true := by
  constructor
  · intro h i hi
    obtain ⟨ds, hds⟩ := Option.isSome_iff_exists.1 h
    have hj := (recBytes_eq_some.1 hds).2 (i / 8) (by omega)
    have := recByte_bits hj (b := i % 8) (Nat.mod_lt _ (by omega))
    rw [Nat.div_add_mod] at this
    rw [this]; rfl
  · intro h
    have hall : ∀ j, j < n → (recByte d ga gb j).isSome = true := fun j hj =>
      recByte_isSome.2 fun b hb => h _ (by omega)
    refine Option.isSome_iff_exists.2
      ⟨(List.range n).map fun j => (recByte d ga gb j).getD 0, recBytes_eq_some.2 ⟨by simp, ?_⟩⟩
    intro j hj
    obtain ⟨f, hf⟩ := Option.isSome_iff_exists.1 (hall j hj)
    rw [List.getD_eq_getElem _ _ (by simpa using hj)]
    simp [hf]

/-- The coordinates DECODE reads cover every cell when NB >= 4 (R154). -/
theorem recBits_cover {d : Dims} (hn : 4 ≤ recoveredBytes d) {x y : Nat} (hx : x < d.w)
    (hy : y < d.h) :
    ∃ i, i < 8 * recoveredBytes d ∧ coord d i = { c := .r, x := x, y := y } := by
  refine ⟨coordIndex d { c := .r, x := x, y := y }, ?_, coord_coordIndex hx hy⟩
  have h1 := (coordIndex_lt (p := { c := .r, x := x, y := y }) hx hy).1
  have h0 : coordIndex d { c := .r, x := x, y := y } = x * d.h + y := by
    simp [coordIndex, Channel.code]
  unfold recoveredBytes at *
  rw [h0]
  rw [Nat.mul_assoc] at *
  simp only at h1
  omega

/-- DECODE's reads all find values exactly when every cell of A and B in range holds one (R154). -/
theorem recBytes_isSome_iff {d : Dims} {ga gb : Memory 24} (hn : 4 ≤ recoveredBytes d) :
    (recBytes d ga gb (recoveredBytes d)).isSome = true ↔
      (∀ x y, x < d.w → y < d.h → (gridRead ga x y).isSome = true) ∧
        ∀ x y, x < d.w → y < d.h → (gridRead gb x y).isSome = true := by
  rw [recBytes_isSome]
  constructor
  · intro h
    have key : ∀ x y, x < d.w → y < d.h →
        (gridRead ga x y).isSome = true ∧ (gridRead gb x y).isSome = true := by
      intro x y hx hy
      obtain ⟨i, hi, hc⟩ := recBits_cover hn hx hy
      have := h i hi
      unfold recBit at this
      rw [hc, readCellBit_isSome] at this
      exact this
    exact ⟨fun x y hx hy => (key x y hx hy).1, fun x y hx hy => (key x y hx hy).2⟩
  · intro h i hi
    have hi' : i < 3 * d.w * d.h := by unfold recoveredBytes at hi; omega
    have hb := coord_bounds hi'
    exact readCellBit_isSome.2 ⟨h.1 _ _ hb.1 hb.2.1, h.2 _ _ hb.1 hb.2.1⟩

/-! ### The prefix -/

/-- A big-endian word of four bytes, as a number (R58). -/
theorem bigEndian_toNat (d0 d1 d2 d3 : Byte) :
    (bigEndian [d0, d1, d2, d3]).toNat =
      16777216 * d0.toNat + 65536 * d1.toNat + 256 * d2.toNat + d3.toNat := by
  have step : ∀ (w : Word) (d : Byte), w.toNat < 16777216 →
      (w <<< 8 ||| d.setWidth 32).toNat = 256 * w.toNat + d.toNat := by
    intro w d hw
    have hd := d.isLt
    rw [BitVec.toNat_or, BitVec.toNat_shiftLeft, BitVec.toNat_setWidth, Nat.shiftLeft_eq,
      Nat.mod_eq_of_lt (by omega), Nat.mod_eq_of_lt (by omega), Nat.mul_comm,
      show (256 : Nat) = 2 ^ 8 by norm_num, ← Nat.two_pow_add_eq_or_of_lt (by omega)]
  have h0 := d0.isLt
  have h1 := d1.isLt
  have h2 := d2.isLt
  have h3 := d3.isLt
  simp only [bigEndian, List.foldl_cons, List.foldl_nil]
  have e0 := step 0 d0 (by simp)
  have e1 := step _ d1 (by rw [e0]; simp; omega)
  have e2 := step _ d2 (by rw [e1, e0]; simp; omega)
  have e3 := step _ d3 (by rw [e2, e1, e0]; simp; omega)
  rw [e3, e2, e1, e0]
  simp
  omega

theorem take_four {ds : List Byte} (h : 4 ≤ ds.length) :
    ds.take 4 = [ds.getD 0 0, ds.getD 1 0, ds.getD 2 0, ds.getD 3 0] := by
  match ds, h with
  | _ :: _ :: _ :: _ :: _, _ => rfl

theorem bigEndian_take_toNat {ds : List Byte} (h : 4 ≤ ds.length) :
    (bigEndian (ds.take 4)).toNat = 16777216 * (ds.getD 0 0).toNat + 65536 * (ds.getD 1 0).toNat +
      256 * (ds.getD 2 0).toNat + (ds.getD 3 0).toNat := by
  rw [take_four h, bigEndian_toNat]

/-- The four prefix bytes of a length read back as the length (R58, R84). -/
theorem bigEndian_prefix (len : Word) :
    bigEndian [len.extractLsb' 24 8, len.extractLsb' 16 8, len.extractLsb' 8 8,
      len.extractLsb' 0 8] = len := by
  apply BitVec.eq_of_toNat_eq
  have := len.isLt
  rw [bigEndian_toNat]
  simp only [BitVec.extractLsb'_toNat, Nat.shiftRight_eq_div_pow]
  omega

/-! ### The round trip -/

/-- The bit DECODE recovers at each coordinate of a plane ENCODE made (R160). -/
theorem recBit_encodedGrid {d : Dims} {len : Word} {pin : Memory 8} {a b g : Memory 24}
    (hd : d.h < 65536) (hf : fits len.toNat d) (h : encodedGrid d len pin a b = some g) {i : Nat}
    (hi : i < 3 * d.w * d.h) :
    recBit d a g i =
      some (decide (i < frameBits len.toNat ∧ frameBit len pin i = some true)) := by
  have hb := coord_bounds hi
  obtain ⟨p, q, hp, hq, hl⟩ := (encodedGrid_read hd hf h).1 _ _ hb.1 hb.2.1
  have hl := hl (coord d i).c
  refine readCellBit_eq_some.2 ⟨p, q, hp, hq, ?_⟩
  have hhit : hit d len pin (List.range (frameBits len.toNat)) (coord d i).c (coord d i).x
      (coord d i).y ↔ i < frameBits len.toNat ∧ frameBit len pin i = some true := by
    constructor
    · rintro ⟨k, hk, hck, hbit⟩
      have hk := List.mem_range.1 hk
      have : k = i := coord_injOn (coord_of_fits hf hk).1 hi hck
      exact this ▸ ⟨hk, hbit⟩
    · exact fun ⟨h1, h2⟩ => ⟨i, List.mem_range.2 h1, rfl, h2⟩
  symm
  by_cases hyes : i < frameBits len.toNat ∧ frameBit len pin i = some true
  · rw [decide_eq_true hyes, readBit_iff, hl.1 (hhit.2 hyes)]
    exact encMask_ne_zero _
  · rw [decide_eq_false hyes, ← Bool.not_eq_true, readBit_iff, hl.2 (fun e => hyes (hhit.1 e))]
    simp

/-- The bytes DECODE recovers from a plane ENCODE made are the bytes of the frame (R160). -/
theorem recByte_encodedGrid {d : Dims} {len : Word} {pin : Memory 8} {a b g : Memory 24}
    (hd : d.h < 65536) (hf : fits len.toNat d) (h : encodedGrid d len pin a b = some g) {j : Nat}
    (hj : j < 4 + len.toNat) : recByte d a g j = frameByte len pin j := by
  have hpay := ((encodedGrid_isSome (b := b) hf).1 (by rw [h]; rfl)).2
  have hsome : ∃ f, frameByte len pin j = some f := by
    match j, hj with
    | 0, _ => exact ⟨_, rfl⟩
    | 1, _ => exact ⟨_, rfl⟩
    | 2, _ => exact ⟨_, rfl⟩
    | 3, _ => exact ⟨_, rfl⟩
    | j + 4, hj => exact Option.isSome_iff_exists.1 (hpay j (by omega))
  obtain ⟨f, hfr⟩ := hsome
  have hbits : ∀ b, b < 8 → recBit d a g (8 * j + b) = some (f.getLsbD (7 - b)) := by
    intro b hb
    have hfit := (fits_iff len.toNat d).1 hf
    have hlt : 8 * j + b < frameBits len.toNat := by unfold frameBits; omega
    rw [recBit_encodedGrid hd hf h (by omega)]
    have : frameBit len pin (8 * j + b) = some (f.getLsbD (7 - b)) := by
      unfold frameBit
      rw [show (8 * j + b) / 8 = j by omega, show (8 * j + b) % 8 = b by omega, hfr,
        Option.map_some, and_bitMask_ne_zero _ hb]
    rw [this]
    simp [hlt]
  rw [recByte_of_bits hbits, hfr]
  congr 1
  apply BitVec.eq_of_getLsbD_eq
  intro k hk
  have := orMasks_getLsbD (fun b => f.getLsbD (7 - b)) (b := 7 - k) (by omega)
  rwa [show 7 - (7 - k) = k by omega] at this

end Sys2Proof.Machine
end

