-- ==== Sys2Proof/Laws/Commands.lean ====
section
/-! SUPPORT. What each command can do: one inversion lemma per meaning ("if it answers next t, then
one of these"), its only fault, and what no command writes. -/

namespace Sys2Proof.Machine

/-! ### Accessors that no result write touches -/

@[simp] theorem State.orgDims_setCap (s : State) (c : Int) : (s.setCap c).orgDims = s.orgDims := rfl
@[simp] theorem State.orgDims_finish (s : State) (e : BitVec 4) :
    (s.finish e).orgDims = s.orgDims := rfl

/-- The two ends of a perform step, as next states (R171, R172). -/
theorem succeed_eq (s : State) : succeed s = .next (s.finish 0) := rfl
theorem raiseError_eq (e : Err) (s : State) : raiseError e s = .next (s.finish e.code) := rfl

/-! ### One lemma per meaning -/

theorem execCapacity_next {s t : State} (h : execCapacity s = .next t) :
    (¬ s.validDims s.orgDims ∧ t = s.finish 2) ∨
      (s.validDims s.orgDims ∧ ¬ fits s.lenNat s.orgDims ∧
        t = (s.setCap (capacity s.orgDims)).finish 3) ∨
      (s.validDims s.orgDims ∧ fits s.lenNat s.orgDims ∧
        t = (s.setCap (capacity s.orgDims)).finish 0) := by
  unfold execCapacity at h
  split at h
  · next hv => cases h; exact .inl ⟨hv, rfl⟩
  · next hv =>
    have hv := not_not.1 hv
    split at h
    · next hf => cases h; exact .inr (.inl ⟨hv, hf, rfl⟩)
    · next hf => cases h; exact .inr (.inr ⟨hv, not_not.1 hf, rfl⟩)

theorem execCoord_next {s t : State} (h : execCoord s = .next t) :
    ((¬ s.validDims s.orgDims ∨ 3 * s.orgDims.w * s.orgDims.h ≤ s.idxNat) ∧ t = s.finish 2) ∨
      (s.validDims s.orgDims ∧ s.idxNat < 3 * s.orgDims.w * s.orgDims.h ∧
        t = (s.setResCoord (coord s.orgDims s.idxNat)).finish 0) := by
  unfold execCoord at h
  split at h
  · next hv => cases h; exact .inl ⟨.inl hv, rfl⟩
  · next hv =>
    split at h
    · next hi => cases h; exact .inl ⟨.inr hi, rfl⟩
    · next hi => cases h; exact .inr ⟨not_not.1 hv, Nat.lt_of_not_le hi, rfl⟩

theorem execFramebit_next {s t : State} (h : execFramebit s = .next t) :
    ((frameBits s.lenNat ≤ s.idxNat ∨ (32 ≤ s.idxNat ∧ s.pbufBytes ≤ (s.idxNat - 32) / 8)) ∧
        t = s.finish 2) ∨
      (s.idxNat < frameBits s.lenNat ∧ ¬ (32 ≤ s.idxNat ∧ s.pbufBytes ≤ (s.idxNat - 32) / 8) ∧
        ∃ b, frameBit s.len s.pin s.idxNat = some b ∧ t = (s.setResBit b).finish 0) := by
  unfold execFramebit at h
  split at h
  · next hk => cases h; exact .inl ⟨.inl hk, rfl⟩
  · next hk =>
    split at h
    · next hp => cases h; exact .inl ⟨.inr hp, rfl⟩
    · next hp =>
      split at h
      · cases h
      · next b hb => cases h; exact .inr ⟨Nat.lt_of_not_le hk, hp, b, hb, rfl⟩

theorem execMap_next {s t : State} (h : execMap s = .next t) :
    (¬ s.validDims s.orgDims ∧ t = s.finish 2) ∨
      (s.validDims s.orgDims ∧ ¬ fits s.lenNat s.orgDims ∧
        t = (s.setCap (capacity s.orgDims)).finish 3) ∨
      (s.validDims s.orgDims ∧ fits s.lenNat s.orgDims ∧ frameBits s.lenNat ≤ s.idxNat ∧
        t = (s.setCap (capacity s.orgDims)).finish 2) ∨
      (s.validDims s.orgDims ∧ fits s.lenNat s.orgDims ∧ s.idxNat < frameBits s.lenNat ∧
        ∃ b, frameBit s.len s.pin s.idxNat = some b ∧
          t = (((s.setCap (capacity s.orgDims)).setResCoord
            (coord s.orgDims s.idxNat)).setResBit b).finish 0) := by
  unfold execMap at h
  split at h
  · next hv => cases h; exact .inl ⟨hv, rfl⟩
  · next hv =>
    have hv := not_not.1 hv
    split at h
    · next hf => cases h; exact .inr (.inl ⟨hv, hf, rfl⟩)
    · next hf =>
      have hf := not_not.1 hf
      split at h
      · next hk => cases h; exact .inr (.inr (.inl ⟨hv, hf, hk, rfl⟩))
      · next hk =>
        split at h
        · cases h
        · next p b hm =>
          cases h
          obtain ⟨b', hb', he⟩ := Option.map_eq_some_iff.1 hm
          cases he
          exact .inr (.inr (.inr ⟨hv, hf, Nat.lt_of_not_le hk, b, hb', rfl⟩))

theorem toggleCommand_next {c : Channel} {s t : State} (h : toggleCommand c s = .next t) :
    ((¬ s.validDims s.modDims ∨ s.modDims.w ≤ s.posX ∨ s.modDims.h ≤ s.posY) ∧
        t = s.finish 2) ∨
      (s.validDims s.modDims ∧ s.posX < s.modDims.w ∧ s.posY < s.modDims.h ∧
        ∃ g, toggleCell s.gridB c s.posX s.posY = some g ∧
          t = State.finish { s with gridB := g } 0) := by
  unfold toggleCommand at h
  split at h
  · next hv => cases h; exact .inl ⟨.inl hv, rfl⟩
  · next hv =>
    split at h
    · next hp => cases h; exact .inl ⟨.inr hp, rfl⟩
    · next hp =>
      split at h
      · cases h
      · next g hg => cases h; exact .inr ⟨not_not.1 hv, by omega, by omega, g, hg, rfl⟩

theorem execEncode_next {s t : State} (h : execEncode s = .next t) :
    (¬ s.validDims s.orgDims ∧ t = s.finish 2) ∨
      (s.validDims s.orgDims ∧ ¬ fits s.lenNat s.orgDims ∧
        t = (s.setCap (capacity s.orgDims)).finish 3) ∨
      (s.validDims s.orgDims ∧ fits s.lenNat s.orgDims ∧
        ∃ g, encodedGrid s.orgDims s.len s.pin s.gridA s.gridB = some g ∧
          t = State.finish
            { s.setCap (capacity s.orgDims) with gridB := g, modDim := s.orgDim } 0) := by
  unfold execEncode at h
  split at h
  · next hv => cases h; exact .inl ⟨hv, rfl⟩
  · next hv =>
    have hv := not_not.1 hv
    split at h
    · next hf => cases h; exact .inr (.inl ⟨hv, hf, rfl⟩)
    · next hf =>
      split at h
      · cases h
      · next g hg => cases h; exact .inr (.inr ⟨hv, not_not.1 hf, g, hg, rfl⟩)

theorem readbitCommand_next {c : Channel} {s t : State} (h : readbitCommand c s = .next t) :
    ((¬ s.validDims s.orgDims ∨ s.modDims ≠ s.orgDims ∨ s.orgDims.w ≤ s.posX ∨
        s.orgDims.h ≤ s.posY) ∧ t = s.finish 2) ∨
      (s.validDims s.orgDims ∧ s.modDims = s.orgDims ∧ s.posX < s.orgDims.w ∧
        s.posY < s.orgDims.h ∧
        ∃ b, readCellBit s.gridA s.gridB c s.posX s.posY = some b ∧
          t = (s.setResBit b).finish 0) := by
  unfold readbitCommand at h
  split at h
  · next hv => cases h; exact .inl ⟨.inl hv, rfl⟩
  · next hv =>
    split at h
    · next hm => cases h; exact .inl ⟨.inr (.inl hm), rfl⟩
    · next hm =>
      split at h
      · next hp => cases h; exact .inl ⟨.inr (.inr hp), rfl⟩
      · next hp =>
        split at h
        · cases h
        · next b hb =>
          cases h
          exact .inr ⟨not_not.1 hv, not_not.1 hm, by omega, by omega, b, hb, rfl⟩

theorem execDecode_next {s t : State} (h : execDecode s = .next t) :
    ((¬ s.validDims s.orgDims ∨ s.modDims ≠ s.orgDims) ∧ t = s.finish 2) ∨
      (s.validDims s.orgDims ∧ s.modDims = s.orgDims ∧ recoveredBytes s.orgDims < 4 ∧
        t = State.finish { s with outLen := 0 } 4) ∨
      (s.validDims s.orgDims ∧ s.modDims = s.orgDims ∧ 4 ≤ recoveredBytes s.orgDims ∧
        ∃ ds, recBytes s.orgDims s.gridA s.gridB (recoveredBytes s.orgDims) = some ds ∧
          ((recoveredBytes s.orgDims - 4 < (bigEndian (ds.take 4)).toNat ∧
              t = State.finish { s with outLen := bigEndian (ds.take 4) } 4) ∨
            ((bigEndian (ds.take 4)).toNat ≤ recoveredBytes s.orgDims - 4 ∧
              t = State.finish
                { s with
                  pout := bufWriteAll s.pout 0
                    ((ds.drop 4).take (bigEndian (ds.take 4)).toNat),
                  outLen := bigEndian (ds.take 4) } 0))) := by
  unfold execDecode at h
  split at h
  · next hv => cases h; exact .inl ⟨.inl hv, rfl⟩
  · next hv =>
    split at h
    · next hm => cases h; exact .inl ⟨.inr hm, rfl⟩
    · next hm =>
      have hv := not_not.1 hv
      have hm := not_not.1 hm
      split at h
      · next hn => cases h; exact .inr (.inl ⟨hv, hm, hn, rfl⟩)
      · next hn =>
        refine .inr (.inr ⟨hv, hm, by omega, ?_⟩)
        split at h
        · cases h
        · next ds hds =>
          refine ⟨ds, hds, ?_⟩
          simp only at h
          split at h
          · next hl => cases h; exact .inl ⟨hl, rfl⟩
          · next hl => cases h; exact .inr ⟨Nat.le_of_not_lt hl, rfl⟩

/-! ### All commands together -/

/-- What no command writes (R49). -/
structure SameOperands (s t : State) : Prop where
  cmd : t.cmd = s.cmd
  orgDim : t.orgDim = s.orgDim
  len : t.len = s.len
  idx : t.idx = s.idx
  pxy : t.pxy = s.pxy
  geomMax : t.geomMax = s.geomMax
  pbufSize : t.pbufSize = s.pbufSize
  gridA : t.gridA = s.gridA
  pin : t.pin = s.pin
  faults : t.faults = s.faults
  turns : t.turns = s.turns
  reply : t.reply = s.reply

/-- Every command that ends writes STATUS as R171 says, with a code of R173, and none of the
operands. -/
theorem exec_next {i : Instr} {s t : State} (h : exec i s = .next t) :
    SameOperands s t ∧ ∃ code : BitVec 4, (code = 0 ∨ code = 2 ∨ code = 3 ∨ code = 4) ∧
      t.status = s.status.finish code := by
  cases i with
  | capacity =>
    rcases execCapacity_next h with ⟨-, rfl⟩ | ⟨-, -, rfl⟩ | ⟨-, -, rfl⟩ <;>
      exact ⟨by constructor <;> rfl, _, by decide, rfl⟩
  | coord =>
    rcases execCoord_next h with ⟨-, rfl⟩ | ⟨-, -, rfl⟩ <;>
      exact ⟨by constructor <;> rfl, _, by decide, rfl⟩
  | framebit =>
    rcases execFramebit_next h with ⟨-, rfl⟩ | ⟨-, -, b, -, rfl⟩ <;>
      exact ⟨by constructor <;> rfl, _, by decide, rfl⟩
  | map =>
    rcases execMap_next h with ⟨-, rfl⟩ | ⟨-, -, rfl⟩ | ⟨-, -, -, rfl⟩ | ⟨-, -, -, b, -, rfl⟩ <;>
      exact ⟨by constructor <;> rfl, _, by decide, rfl⟩
  | toggleR =>
    rcases toggleCommand_next h with ⟨-, rfl⟩ | ⟨-, -, -, g, -, rfl⟩ <;>
      exact ⟨by constructor <;> rfl, _, by decide, rfl⟩
  | toggleG =>
    rcases toggleCommand_next h with ⟨-, rfl⟩ | ⟨-, -, -, g, -, rfl⟩ <;>
      exact ⟨by constructor <;> rfl, _, by decide, rfl⟩
  | toggleB =>
    rcases toggleCommand_next h with ⟨-, rfl⟩ | ⟨-, -, -, g, -, rfl⟩ <;>
      exact ⟨by constructor <;> rfl, _, by decide, rfl⟩
  | encode =>
    rcases execEncode_next h with ⟨-, rfl⟩ | ⟨-, -, rfl⟩ | ⟨-, -, g, -, rfl⟩ <;>
      exact ⟨by constructor <;> rfl, _, by decide, rfl⟩
  | readbitR =>
    rcases readbitCommand_next h with ⟨-, rfl⟩ | ⟨-, -, -, -, b, -, rfl⟩ <;>
      exact ⟨by constructor <;> rfl, _, by decide, rfl⟩
  | readbitG =>
    rcases readbitCommand_next h with ⟨-, rfl⟩ | ⟨-, -, -, -, b, -, rfl⟩ <;>
      exact ⟨by constructor <;> rfl, _, by decide, rfl⟩
  | readbitB =>
    rcases readbitCommand_next h with ⟨-, rfl⟩ | ⟨-, -, -, -, b, -, rfl⟩ <;>
      exact ⟨by constructor <;> rfl, _, by decide, rfl⟩
  | decode =>
    rcases execDecode_next h with ⟨-, rfl⟩ | ⟨-, -, -, rfl⟩ |
      ⟨-, -, -, ds, -, ⟨-, rfl⟩ | ⟨-, rfl⟩⟩ <;>
      exact ⟨by constructor <;> rfl, _, by decide, rfl⟩

end Sys2Proof.Machine
end

