-- ==== Sys2Proof/Laws/Step.lean ====
section
/-! SUPPORT. The step, turn by turn: one equation per kind of turn, and what each can do. -/

namespace Sys2Proof.Machine

theorem step_of_fault {s : State} {f : Fault} {fs : List Fault} (h : s.faults = f :: fs) :
    step s = .fault f := by simp [step, advanceRun, h]

theorem step_of_turn {s : State} {t : Turn} {ts : List Turn} (hf : s.faults = [])
    (h : s.turns = t :: ts) : step s = runTurn t { s with turns := ts } := by
  simp [step, advanceRun, hf, h]

theorem step_of_no_turn {s : State} (hf : s.faults = []) (h : s.turns = []) :
    step s = sequencerTurn s := by simp [step, advanceRun, hf, h]

theorem sequencerTurn_busy {s : State} (h : s.status.busy = true) :
    sequencerTurn s = perform s := by simp [sequencerTurn, h]

theorem sequencerTurn_idle {s : State} (h : s.status.busy = false) :
    sequencerTurn s = .next s := by simp [sequencerTurn, h]

theorem perform_of_decode {s : State} {i : Instr} (h : decode s.cmd = some i) :
    perform s = exec i s := by simp [perform, h]

theorem perform_of_illegal {s : State} (h : decode s.cmd = none) :
    perform s = .next (s.finish 1) := by simp [perform, h, raiseError, Err.code]

/-- What a perform step can do (R171, R174). -/
theorem perform_next {s t : State} (h : perform s = .next t) :
    (decode s.cmd = none ∧ t = s.finish 1) ∨ ∃ i, decode s.cmd = some i ∧ exec i s = .next t := by
  cases hd : decode s.cmd with
  | none => rw [perform_of_illegal hd] at h; cases h; exact .inl ⟨rfl, rfl⟩
  | some i => rw [perform_of_decode hd] at h; exact .inr ⟨i, rfl, h⟩

/-- The perform step writes no operand, and STATUS as R171 says. -/
theorem perform_frame {s t : State} (h : perform s = .next t) :
    SameOperands s t ∧ ∃ code : BitVec 4, code.toNat ≤ 4 ∧ t.status = s.status.finish code := by
  rcases perform_next h with ⟨-, rfl⟩ | ⟨i, -, h⟩
  · exact ⟨by constructor <;> rfl, 1, by decide, rfl⟩
  · obtain ⟨hs, code, hc, ht⟩ := exec_next h
    exact ⟨hs, code, by rcases hc with rfl | rfl | rfl | rfl <;> decide, ht⟩

/-! ### Host transactions -/

theorem transact_busy {s : State} {t : Transaction} (hb : s.status.busy = true)
    (h : t ≠ .readReg 0x04) : transact t s = .fault .hostBusy :=
  if_pos ⟨hb, h⟩

theorem transact_idle {s : State} {t : Transaction} (hb : s.status.busy = false)
    (h : s.inRange t = true) : transact t s = definedTransact t s := by
  simp [transact, hb, h]

theorem transact_range {s : State} {t : Transaction} (hb : s.status.busy = false)
    (h : s.inRange t = false) : transact t s = .fault .hostRange := by
  simp [transact, hb, h]

/-- A read of STATUS is answered at all times (R57). -/
theorem transact_status (s : State) :
    transact (.readReg 0x04) s = .next (s.answer (.word s.status.word)) := by
  have hr : decide (regInRange 0x04) = true := by decide
  have hr : s.inRange (.readReg 0x04) = true := hr
  unfold transact
  rw [if_neg (fun h => h.2 rfl), if_neg (by rw [hr]; decide)]
  rfl

/-- A transaction that completes is the defined one, at an in-range address, with BUSY = 0 unless it
reads STATUS. -/
theorem transact_next {s t : State} {x : Transaction} (h : transact x s = .next t) :
    (s.status.busy = true → x = .readReg 0x04) ∧ s.inRange x = true ∧
      definedTransact x s = .next t := by
  unfold transact at h
  split at h
  · cases h
  · next hb =>
    split at h
    · cases h
    · next hr =>
      refine ⟨fun e => ?_, by simpa using hr, h⟩
      by_contra hx
      exact hb ⟨e, hx⟩

theorem readReply_next {s t : State} {v : Option Reply} (h : readReply s v = .next t) :
    ∃ r, v = some r ∧ t = s.answer r := by
  cases v with
  | none => cases h
  | some r => cases h; exact ⟨r, rfl, rfl⟩

/-- What a defined transaction leaves: a read changes the host's data alone; a write changes the
written place alone, besides the issue and the clearing of STICKY (R62). -/
theorem definedTransact_next {s t : State} {x : Transaction} (h : definedTransact x s = .next t) :
    (∃ r, t = s.answer r) ∨
      (∃ a v, x = .writeReg a v ∧ t = (s.regWrite a.toNat v).noAnswer) ∨
      (∃ p a d, x = .writeGrid p a d ∧
        t = (s.setPlane p (gridWrite (s.plane p) (hi16 a).toNat (lo16 a).toNat
          (d.extractLsb' 0 24))).noAnswer) ∨
      (∃ a v, x = .writePin a v ∧
        t = State.noAnswer { s with pin := Memory.write s.pin a.toNat v }) ∨
      (∃ a v, x = .writePout a v ∧ t = s.noAnswer) := by
  cases x with
  | readReg a => cases h; exact .inl ⟨_, rfl⟩
  | writeReg a v => cases h; exact .inr (.inl ⟨a, v, rfl, rfl⟩)
  | readGrid p a => obtain ⟨r, -, rfl⟩ := readReply_next h; exact .inl ⟨r, rfl⟩
  | writeGrid p a d => cases h; exact .inr (.inr (.inl ⟨p, a, d, rfl, rfl⟩))
  | readPin a => obtain ⟨r, -, rfl⟩ := readReply_next h; exact .inl ⟨r, rfl⟩
  | writePin a v => cases h; exact .inr (.inr (.inr (.inl ⟨a, v, rfl, rfl⟩)))
  | readPout a => obtain ⟨r, -, rfl⟩ := readReply_next h; exact .inl ⟨r, rfl⟩
  | writePout a v => cases h; exact .inr (.inr (.inr (.inr ⟨a, v, rfl, rfl⟩)))

/-- What a register write does (R53). -/
theorem regWrite_cases (s : State) (off : Nat) (v : Word) :
    s.regWrite off v = s ∨ (off = 0x00 ∧ s.regWrite off v = s.issue v) ∨
      (off = 0x04 ∧ s.regWrite off v = { s with status := s.status.hostWrite v }) ∨
      (off = 0x08 ∧ s.regWrite off v = { s with orgDim := v }) ∨
      (off = 0x0C ∧ s.regWrite off v = { s with modDim := v }) ∨
      (off = 0x10 ∧ s.regWrite off v = { s with len := v }) ∨
      (off = 0x1C ∧ s.regWrite off v = { s with idx := v }) ∨
      (off = 0x20 ∧ s.regWrite off v = { s with pxy := v }) := by
  unfold State.regWrite
  split <;> simp

/-- What a step can do: a stopped run does not move; else the sequencer, the host or reset does. -/
theorem step_next {s t : State} (h : step s = .next t) :
    s.faults = [] ∧
      ((s.turns = [] ∧ sequencerTurn s = .next t) ∨
        (∃ ts, s.turns = .sequencer :: ts ∧ sequencerTurn { s with turns := ts } = .next t) ∨
        (∃ x ts, s.turns = .host x :: ts ∧ transact x { s with turns := ts } = .next t) ∨
        ∃ ts, s.turns = .reset :: ts ∧ t = resetInput { s with turns := ts }) := by
  have hf : s.faults = [] := by
    rcases hs : s.faults with - | ⟨f, fs⟩
    · rfl
    · rw [step_of_fault hs] at h; cases h
  refine ⟨hf, ?_⟩
  rcases ht : s.turns with - | ⟨u, us⟩
  · rw [step_of_no_turn hf ht] at h; exact .inl ⟨rfl, h⟩
  · rw [step_of_turn hf ht] at h
    cases u with
    | host x => exact .inr (.inr (.inl ⟨x, us, rfl, h⟩))
    | sequencer => exact .inr (.inl ⟨us, rfl, h⟩)
    | reset => cases h; exact .inr (.inr (.inr ⟨us, rfl, rfl⟩))

/-- What the sequencer's turn can do. -/
theorem sequencerTurn_next {s t : State} (h : sequencerTurn s = .next t) :
    (s.status.busy = false ∧ t = s) ∨ (s.status.busy = true ∧ perform s = .next t) := by
  cases hb : s.status.busy with
  | false => rw [sequencerTurn_idle hb] at h; cases h; exact .inl ⟨rfl, rfl⟩
  | true => rw [sequencerTurn_busy hb] at h; exact .inr ⟨rfl, h⟩

/-- A placed command word is performed by the very next step (log entry 10). -/
theorem step_withFetchWord (s : State) {w : Nat} (hw : w < 2 ^ 32) {i : Instr}
    (h : decode (BitVec.ofNat 32 w) = some i) :
    step (s.withFetchWord 32 w) =
      exec i { s.issue (BitVec.ofNat 32 w) with faults := [], turns := s.turns } := by
  have he : BitVec.ofNat 32 (w % 2 ^ 32) = BitVec.ofNat 32 w := by rw [Nat.mod_eq_of_lt hw]
  unfold State.withFetchWord
  rw [he, step_of_turn (t := .sequencer) (ts := s.turns) rfl rfl]
  unfold runTurn
  rw [sequencerTurn_busy rfl, perform_of_decode (i := i) (by exact h)]
  rfl

end Sys2Proof.Machine
end

