-- ==== Sys2Proof/Laws/PerInstr.lean ====
section
/-! SUPPORT. The family of statements made per instruction: each command's word decodes to it, and
its fields are legal (R76 to R80). -/

namespace Sys2Proof.Laws.WordOfCommand

/-- The encoded word of a command decodes to it and has legal fields. -/
def Statement (i : Instr) : Prop :=
  decode (encode i) = some i ∧ (commandFields (encode i)).wellFormed

theorem capacity : Statement .capacity := by unfold Statement; decide
theorem coord : Statement .coord := by unfold Statement; decide
theorem framebit : Statement .framebit := by unfold Statement; decide
theorem map : Statement .map := by unfold Statement; decide
theorem toggleR : Statement .toggleR := by unfold Statement; decide
theorem toggleG : Statement .toggleG := by unfold Statement; decide
theorem toggleB : Statement .toggleB := by unfold Statement; decide
theorem encode : Statement .encode := by unfold Statement; decide
theorem readbitR : Statement .readbitR := by unfold Statement; decide
theorem readbitG : Statement .readbitG := by unfold Statement; decide
theorem readbitB : Statement .readbitB := by unfold Statement; decide
theorem decode : Statement .decode := by unfold Statement; decide

end Sys2Proof.Laws.WordOfCommand
end

