-- ==== Sys2Proof/Tests/Slice0.lean ====
section
/-! SUPPORT. The model's own tests: ill-formed command words and builds are refused, every command's
word decodes to it, one step of each command on the vectors of 95_test_vectors.md, and for every
statement a named state that meets its hypotheses. Expected results come from the spec. -/

namespace Sys2Proof.Machine.Tests

open Sys2Proof Sys2Proof.Machine

/-! ### Helpers -/

/-- A field of the next state, if there is one. -/
def pick {β : Type} (f : State → β) : Host.Outcome State Fault Refusal → Option β
  | .next t => some (f t)
  | .fault _ => none
  | .refused _ => none

/-- The model fault of an outcome, if it is one. -/
def stop : Host.Outcome State Fault Refusal → Option Fault
  | .next _ => none
  | .fault f => some f
  | .refused _ => none

/-- A next state satisfying a check exists. -/
theorem next_of_pick {o : Host.Outcome State Fault Refusal} {P : State → Bool}
    (h : pick P o = some true) : ∃ t, o = .next t ∧ P t = true := by
  cases o with
  | next t => exact ⟨t, rfl, by simpa [pick] using h⟩
  | fault f => cases h
  | refused r => cases h

theorem fault_of_stop {o : Host.Outcome State Fault Refusal} {f : Fault} (h : stop o = some f) :
    o = .fault f := by
  cases o with
  | next t => cases h
  | fault g => simp only [stop, Option.some.injEq] at h; rw [h]
  | refused r => cases h

theorem cellsHold_of_all {g : Memory 24} {d : Dims}
    (h : ((cellsOf d).all fun xy => (gridRead g xy.1 xy.2).isSome) = true) : cellsHold g d :=
  fun x y hx hy => List.all_eq_true.1 h (x, y) (mem_cellsOf.2 ⟨hx, hy⟩)

theorem bytesHold_of_all {m : Memory 8} {n : Nat}
    (h : ((List.range n).all fun j => (bufRead m j).isSome) = true) : bytesHold m n :=
  fun j hj => List.all_eq_true.1 h j (List.mem_range.2 hj)

/-- After reset of the build of R10. -/
def base : State := State.resetWith { gridMaxW := 10, gridMaxH := 10, pbufBytes := 33 }

/-- A grid with one value in every cell. -/
def plain (d : Dims) (v : Pixel) : Memory 24 :=
  (cellsOf d).map fun xy => (cellAddr xy.1 xy.2, v)

/-- A command pending, the sequencer to move. -/
def pend (s : State) (w : Word) : State :=
  { s with cmd := w, status := s.status.issue, turns := [.sequencer] }

/-- A host transaction next. -/
def ask (s : State) (t : Transaction) : State := { s with turns := [.host t] }

/-- CORE busy with a command. -/
def busy : State := { base with cmd := 1, status := ⟨true, false, 0, false⟩ }

/-- Program P1 of 95_test_vectors.md, before ENCODE. -/
def p1 : State :=
  { base with
    orgDim := 0x00050003
    len := 1
    pin := [(0, 0xA5)]
    gridA := gridWrite (plain ⟨5, 3⟩ 0x808080) 1 1 0x818181 }

/-- The plane B of P1's end state, as the spec lists it. -/
def p1Grid : Memory 24 :=
  [(cellAddr 0 0, 0x808080), (cellAddr 0 1, 0x808081), (cellAddr 0 2, 0x808081),
   (cellAddr 1 0, 0x808080), (cellAddr 1 1, 0x818180), (cellAddr 1 2, 0x808080),
   (cellAddr 2 0, 0x808080), (cellAddr 2 1, 0x808081), (cellAddr 2 2, 0x808080),
   (cellAddr 3 0, 0x808081), (cellAddr 3 1, 0x808080), (cellAddr 3 2, 0x808080),
   (cellAddr 4 0, 0x808080), (cellAddr 4 1, 0x808080), (cellAddr 4 2, 0x808080)]

/-- P1 after ENCODE, as the spec lists it. -/
def p1Coded : State := { p1 with cap := 1, modDim := 0x00050003, gridB := p1Grid }

/-- A cell of B under TOGGLE (95_test_vectors.md 2.5). -/
def cellB (v : Pixel) : State :=
  { base with modDim := 0x00050003, pxy := 0x00010002, gridB := [(cellAddr 1 2, v)] }

/-- A cell of A and of B under READBIT (95_test_vectors.md 2.7). -/
def cellAB (a b : Pixel) : State :=
  { base with orgDim := 0x00050003, modDim := 0x00050003, pxy := 0x00000001,
              gridA := [(cellAddr 0 1, a)], gridB := [(cellAddr 0 1, b)] }

/-- STATUS as the host reads it. -/
def statusWord (s : State) : Word := s.status.word

/-! ### Well-formedness: each check refuses an ill-formed term -/

theorem test_wf_accepts_toggleG : CommandFields.wellFormed { rsv := 0, ch := 1, op := 5 } := by
  decide

theorem test_wf_refuses_reserved : ¬ CommandFields.wellFormed { rsv := 1, ch := 0, op := 6 } := by
  decide

theorem test_wf_refuses_op_zero : ¬ CommandFields.wellFormed { rsv := 0, ch := 0, op := 0 } := by
  decide

theorem test_wf_refuses_op_nine : ¬ CommandFields.wellFormed { rsv := 0, ch := 0, op := 9 } := by
  decide

theorem test_wf_refuses_channel_three :
    ¬ CommandFields.wellFormed { rsv := 0, ch := 3, op := 5 } := by decide

theorem test_wf_refuses_unused_channel :
    ¬ CommandFields.wellFormed { rsv := 0, ch := 1, op := 1 } := by decide

theorem test_build_refuses_zero_width :
    State.build { gridMaxW := 0, gridMaxH := 10, pbufBytes := 33 } = none := by decide

theorem test_build_refuses_large_height :
    State.build { gridMaxW := 1, gridMaxH := 65536, pbufBytes := 24572 } = none := by decide

theorem test_build_refuses_short_buffer :
    State.build { gridMaxW := 10, gridMaxH := 10, pbufBytes := 32 } = none := by decide

/-! ### Decoding: words written out from {RSV, CH, OP} (R75 to R80) -/

theorem test_decode_capacity : decode 0b00000000000000000000000000000001 = some .capacity := by
  decide

theorem test_decode_coord : decode 0b00000000000000000000000000000010 = some .coord := by decide

theorem test_decode_framebit : decode 0b00000000000000000000000000000011 = some .framebit := by
  decide

theorem test_decode_map : decode 0b00000000000000000000000000000100 = some .map := by decide

theorem test_decode_toggleR : decode 0b00000000000000000000000000000101 = some .toggleR := by
  decide

theorem test_decode_toggleG : decode 0b00000000000000000000000000010101 = some .toggleG := by
  decide

theorem test_decode_toggleB : decode 0b00000000000000000000000000100101 = some .toggleB := by
  decide

theorem test_decode_encode : decode 0b00000000000000000000000000000110 = some .encode := by decide

theorem test_decode_readbitR : decode 0b00000000000000000000000000000111 = some .readbitR := by
  decide

theorem test_decode_readbitG : decode 0b00000000000000000000000000010111 = some .readbitG := by
  decide

theorem test_decode_readbitB : decode 0b00000000000000000000000000100111 = some .readbitB := by
  decide

theorem test_decode_decode : decode 0b00000000000000000000000000001000 = some .decode := by decide

theorem test_decode_illegal : [0x00000000, 0x00000011, 0x00000035, 0x00000040, 0x80000006,
    0x00000009, 0x0000000F].all (fun w => decode w == none) = true := by decide

theorem test_table_word : decodeTableWord 32 0x25 = some .toggleB ∧
    decodeTableWord 40 0x100000025 = none := by decide

/-! ### One step of each command, on the vectors of 95_test_vectors.md -/

theorem test_capacity_negative :
    pick (fun t => (t.cap, statusWord t))
      (step (pend { base with orgDim := 0x00020002 } 1)) = some (0xFFFFFFFD, 0x132) := by decide

theorem test_capacity_full :
    pick (fun t => (t.cap, statusWord t))
      (step (pend { base with orgDim := 0x000A000A, len := 33 } 1)) = some (0x21, 0x2) := by decide

theorem test_coord_last_green :
    pick (fun t => (t.resXY, t.resMisc.word))
      (step (pend { base with orgDim := 0x00050003, idx := 29 } 2)) =
        some (0x00040002, 1) := by decide

theorem test_coord_past_end :
    pick (fun t => (t.resXY, statusWord t))
      (step (pend { base with orgDim := 0x00050003, idx := 45 } 2)) = some (0, 0x122) := by decide

theorem test_framebit_payload :
    [32, 33, 34, 39].map (fun k => pick (fun t => t.resMisc.bit)
      (step (pend { p1 with idx := k } 3))) =
        [some true, some false, some true, some true] := by decide

theorem test_framebit_buffer_bound :
    pick statusWord (step (pend { base with len := 0x01020304, idx := 296 } 3)) =
      some 0x122 := by decide

theorem test_map_last_prefix_bit :
    pick (fun t => (t.cap, t.resXY, t.resMisc.word)) (step (pend { p1 with idx := 31 } 4)) =
      some (1, 0x00000001, 0x102) := by decide

theorem test_map_past_frame :
    pick (fun t => (t.cap, t.resXY, statusWord t)) (step (pend { p1 with idx := 40 } 4)) =
      some (1, 0, 0x122) := by decide

theorem test_toggleR :
    pick (fun t => t.gridB) (step (pend (cellB 0x123456) 0x05)) =
      some [(cellAddr 1 2, 0x133456)] := by decide

theorem test_toggleG :
    pick (fun t => t.gridB) (step (pend (cellB 0x123456) 0x15)) =
      some [(cellAddr 1 2, 0x123556)] := by decide

theorem test_toggleB_no_carry :
    pick (fun t => t.gridB) (step (pend (cellB 0xFFFFFF) 0x25)) =
      some [(cellAddr 1 2, 0xFFFFFE)] := by decide

theorem test_toggleB_unwritten_cell :
    stop (step (pend { cellB 0 with gridB := [] } 0x25)) = some .uninitRead := by decide

theorem test_encode_p1 :
    pick (fun t => (t.gridB, t.modDim, t.cap, statusWord t)) (step (pend p1 6)) =
      some (p1Grid, 0x00050003, 1, 0x2) := by decide +kernel

theorem test_encode_too_long :
    pick (fun t => (t.gridB, t.modDim, t.cap, statusWord t))
      (step (pend { p1 with len := 2 } 6)) = some ([], 0, 1, 0x132) := by decide

theorem test_readbit_lane_high_bit :
    [0x07, 0x17, 0x27].map (fun w => pick (fun t => t.resMisc.bit)
      (step (pend (cellAB 0x123456 0x1234D6) w))) = [some false, some false, some true] := by
  decide

theorem test_readbit_red :
    [0x07, 0x17, 0x27].map (fun w => pick (fun t => t.resMisc.bit)
      (step (pend (cellAB 0x00FF00 0x01FF00) w))) = [some true, some false, some false] := by
  decide

theorem test_decode_p1 :
    pick (fun t => (t.pout, t.outLen, statusWord t)) (step (pend p1Coded 8)) =
      some ([(0, 0xA5)], 1, 0x2) := by decide +kernel

theorem test_decode_truncated :
    pick (fun t => (t.pout, t.outLen, statusWord t))
      (step (pend { p1 with modDim := 0x00050003, gridA := plain ⟨5, 3⟩ 0x808080,
                            gridB := gridWrite (plain ⟨5, 3⟩ 0x808080) 0 0 0x818080 } 8)) =
      some ([], 0x80000000, 0x142) := by decide +kernel

theorem test_illegal_word :
    pick (fun t => (t.gridB, statusWord t)) (step (pend (cellB 0x123456) 0x35)) =
      some ([(cellAddr 1 2, 0x123456)], 0x112) := by decide

theorem test_status_write_clears_sticky :
    [0x100, 0x0FF].map (fun v => pick statusWord
      (step (ask { base with status := ⟨false, true, 4, true⟩ } (.writeReg 0x04 v)))) =
        [some 0x42, some 0x142] := by decide

/-- From reset every command finds 0 by 0 dimensions, and FRAMEBIT bit 0 of an empty frame. -/
theorem test_placed_word_runs_first :
    [1, 2, 3, 4, 5, 0x15, 0x25, 6, 7, 0x17, 0x27, 8].map (fun w =>
      pick statusWord (step (State.reset.withFetchWord 32 w))) =
        [some 0x122, some 0x122, some 0x2, some 0x122, some 0x122, some 0x122, some 0x122,
          some 0x122, some 0x122, some 0x122, some 0x122, some 0x122] := by decide

/-! ### Witnesses: states that meet the hypotheses of the statements -/

theorem witness_DecodeEncodeInverse : decode 0x00000027 = some .readbitB ∧
    decode 0x00000001 = some .capacity := by decide

theorem witness_IllegalWordsByField :
    decode 0x00000040 = none ∧ decode 0x00000028 = none ∧ decode 0x00000008 ≠ none := by decide

theorem witness_StepRunsDecodedCommand :
    (pend p1 8).sequencerNext [] ∧ (pend p1 8).status.busy = true ∧
      decode (pend p1 8).cmd = some .decode ∧ busy.sequencerNext [] ∧
      busy.status.busy = true ∧ decode busy.cmd = some .capacity := by decide

theorem witness_IssueOfCommand :
    (ask base (.writeReg 0x00 0x35)).nextTurn (.host (.writeReg 0x00 0x35)) [] ∧
      base.status.busy = false ∧
      (ask busy (.writeReg 0x00 1)).nextTurn (.host (.writeReg 0x00 1)) [] ∧
      busy.status.busy = true := by decide

theorem witness_IllegalCommandEnds :
    (pend base 0x80000006).sequencerNext [] ∧ (pend base 0x80000006).status.busy = true ∧
      illegalWord 0x80000006 ∧ illegalWord 0 ∧ illegalWord 9 ∧ illegalWord 15 ∧
      illegalWord 64 ∧ illegalWord 0x11 ∧ illegalWord 0x35 ∧ ¬ illegalWord 0x27 := by
  refine ⟨by decide, by decide, ?_⟩
  norm_num [illegalWord]

theorem witness_CommandEndsStatus :
    (∃ t, exec .capacity { base with orgDim := 0x000A000A } = .next t ∧
      (statusWord t == 0x2) = true) ∧
    (∃ t, exec .capacity base = .next t ∧ (statusWord t == 0x122) = true) ∧
    (∃ t, exec .capacity { base with orgDim := 0x00010001 } = .next t ∧
      (statusWord t == 0x132) = true) ∧
    ∃ t, exec .decode { base with orgDim := 0x000A0001, modDim := 0x000A0001 } = .next t ∧
      (statusWord t == 0x142) = true :=
  ⟨next_of_pick (by decide), next_of_pick (by decide), next_of_pick (by decide),
    next_of_pick (by decide)⟩

theorem witness_StatusAndResMiscLayout :
    (ask base (.writeReg 0x04 0x100)).nextTurn (.host (.writeReg 0x04 0x100)) [] ∧
      (ask base (.writeReg 0x04 0x0FF)).nextTurn (.host (.writeReg 0x04 0x0FF)) [] ∧
      base.status.busy = false := by decide

theorem witness_StickyLife :
    (∃ t, step (pend base 0x35) = .next t ∧ t.status.sticky = true) ∧
      (pend base 0x35).sequencerNext [] ∧ (pend base 0x35).status.busy = true ∧
      (ask base (.writeReg 0x04 0x100)).nextTurn (.host (.writeReg 0x04 0x100)) [] ∧
      (ask busy (.writeReg 0x04 0x100)).nextTurn (.host (.writeReg 0x04 0x100)) [] ∧
      (0x100 : Word).getLsbD 8 = true ∧
      State.nextTurn { busy with turns := [.reset] } .reset [] :=
  ⟨next_of_pick (by decide), by decide⟩

theorem witness_IdleHoldsState :
    base.sequencerNext [] ∧ State.sequencerNext { base with turns := [.sequencer, .reset] } [.reset] ∧
      base.status.busy = false := by decide

theorem witness_PollingReachesPerform :
    busy.faults = [] ∧ busy.status.busy = true ∧
      State.turns { busy with turns := [.host (.readReg 0x04), .host (.readReg 0x04), .sequencer] } =
        List.replicate 2 (.host (.readReg 0x04)) ++ [.sequencer] ∧
      busy.turns = List.replicate 0 (.host (.readReg 0x04)) ++ [] := by decide

theorem witness_StateAfterReset :
    Params.legal { gridMaxW := 1, gridMaxH := 1, pbufBytes := 0 } ∧
      Params.legal { gridMaxW := 10, gridMaxH := 10, pbufBytes := 33 } ∧
      Params.legal { gridMaxW := 65535, gridMaxH := 65535, pbufBytes := 1610563580 } := by decide

theorem witness_ResetInputAtAnyTime :
    State.nextTurn { busy with turns := [.reset, .sequencer] } .reset [.sequencer] := by decide

theorem witness_BuildRefusesIllegalParams :
    State.build { gridMaxW := 10, gridMaxH := 10, pbufBytes := 33 } = some base := by decide

theorem witness_OnlyStatusReadWhileBusy :
    busy.status.busy = true ∧
      (ask busy (.readReg 0x04)).nextTurn (.host (.readReg 0x04)) [] ∧
      (ask busy (.readReg 0x100)).nextTurn (.host (.readReg 0x100)) [] ∧
      Transaction.readReg 0x100 ≠ .readReg 0x04 := by decide

theorem witness_OutOfRangeFaults :
    (ask base (.readReg 0xFC)).nextTurn (.host (.readReg 0xFC)) [] ∧ base.status.busy = false ∧
      ¬ outOfRange base (.readReg 0xFC) ∧ outOfRange base (.readReg 0x100) ∧
      outOfRange base (.writeReg 0x02 0) ∧ ¬ outOfRange base (.readGrid .a 0x00090009) ∧
      outOfRange base (.readGrid .b 0x000A0009) ∧ outOfRange base (.writeGrid .a 0x0009000A 0) ∧
      ¬ outOfRange base (.readPin 32) ∧ outOfRange base (.writePin 33 0) ∧
      ¬ outOfRange base (.writePout 32 0) ∧ outOfRange base (.readPout 33) := by
  simp only [outOfRange]; decide

theorem witness_RegisterMapReads :
    (ask base (.readReg 0x30)).nextTurn (.host (.readReg 0x30)) [] ∧ base.status.busy = false ∧
      ((0x30 : Word), base.pbufSize) ∈ [((0x00 : Word), base.cmd), (0x30, base.pbufSize)] := by
  decide

theorem witness_UnmappedReadsZeroIgnoresWrites :
    (ask base (.readReg 0x34)).nextTurn (.host (.readReg 0x34)) [] ∧
      (ask base (.writeReg 0xFC 7)).nextTurn (.host (.writeReg 0xFC 7)) [] ∧
      (ask base (.writeReg 0x28 7)).nextTurn (.host (.writeReg 0x28 7)) [] ∧
      base.status.busy = false ∧
      ∃ t, step (ask base (.writeReg 0x04 0xFFFFFFFF)) = .next t ∧ (statusWord t == 0) = true :=
  ⟨by decide, by decide, by decide, by decide, next_of_pick (by decide)⟩

theorem witness_RegisterWrites :
    [0x00, 0x04, 0x08, 0x0C, 0x10, 0x14, 0x18, 0x1C, 0x20, 0x24, 0x28, 0x2C, 0x30].all (fun a =>
      decide ((ask base (.writeReg a 0xFFFFFFFF)).nextTurn (.host (.writeReg a 0xFFFFFFFF)) [])) =
        true ∧ base.status.busy = false := by decide

theorem witness_GridTransactions :
    base.status.busy = false ∧ (0x00090000 : Word).toNat / 65536 < base.gridMaxW ∧
      (0x00090000 : Word).toNat % 65536 < base.gridMaxH ∧
      (ask base (.writeGrid .b 0x00090000 0xFF123456)).nextTurn
        (.host (.writeGrid .b 0x00090000 0xFF123456)) [] ∧
      (ask (cellB 5) (.readGrid .b 0x00010002)).nextTurn (.host (.readGrid .b 0x00010002)) [] ∧
      gridRead ((cellB 5).plane .b) 1 2 = some 5 ∧ (0x00010002 : Word).toNat % 65536 = 2 ∧
      (0x00010002 : Word).toNat / 65536 = 1 := by decide

theorem witness_BufferTransactions :
    base.status.busy = false ∧ (32 : Word).toNat < base.pbufBytes ∧
      (ask base (.writePin 32 7)).nextTurn (.host (.writePin 32 7)) [] ∧
      (ask base (.writePout 32 7)).nextTurn (.host (.writePout 32 7)) [] ∧
      (ask p1 (.readPin 0)).nextTurn (.host (.readPin 0)) [] ∧ bufRead p1.pin 0 = some 0xA5 ∧
      (ask { base with pout := [(32, 9)] } (.readPout 32)).nextTurn (.host (.readPout 32)) [] ∧
      bufRead (State.pout { base with pout := [(32, 9)] }) 32 = some 9 := by decide

theorem witness_HostReadOfNoValueFaults :
    base.status.busy = false ∧
      (ask base (.readGrid .a 0x00090009)).nextTurn (.host (.readGrid .a 0x00090009)) [] ∧
      gridRead (base.plane .a) 9 9 = none ∧
      (ask base (.readPin 32)).nextTurn (.host (.readPin 32)) [] ∧ bufRead base.pin 32 = none ∧
      (ask base (.readPout 0)).nextTurn (.host (.readPout 0)) [] ∧ bufRead base.pout 0 = none := by
  decide

theorem witness_ReadsHaveNoSideEffect :
    isRead (.readPin 0) ∧
      State.nextTurn { p1 with turns := [.host (.readPin 0), .host (.readPin 0)] }
        (.host (.readPin 0)) [.host (.readPin 0)] ∧
      ∃ t, step { p1 with turns := [.host (.readPin 0), .host (.readPin 0)] } = .next t ∧
        (t.reply == some (.byte 0xA5)) = true :=
  ⟨trivial, by decide, next_of_pick (by decide)⟩

theorem witness_ResetMeetsInvariant :
    Params.legal { gridMaxW := 65535, gridMaxH := 1, pbufBytes := 24571 } := by decide

/-- The invariant of a state with values in its memories, before ENCODE; and a step of it. -/
theorem witness_StepKeepsInvariant :
    (pend p1 6).Inv ∧ ∃ t, step (pend p1 6) = .next t ∧ (statusWord t == 0x2) = true :=
  ⟨⟨by decide, by decide, by decide, by decide, by decide, by decide, by decide, by decide,
    by decide, by decide⟩, next_of_pick (by decide +kernel)⟩

theorem witness_OnlyHostWritesOperands :
    (∃ t, step (pend p1 6) = .next t ∧ (t.len == 1) = true) ∧ (pend p1 6).turns = [.sequencer] ∧
      ∃ t, step (ask base (.writeReg 0x10 9)) = .next t ∧ (t.len == 9) = true :=
  ⟨next_of_pick (by decide +kernel), rfl, next_of_pick (by decide)⟩

theorem witness_ConstantRegistersKeep :
    ∃ t, step (ask base (.writeReg 0x2C 0)) = .next t ∧ (t.regRead 0x2C == 0x000A000A) = true :=
  next_of_pick (by decide)

theorem witness_BusyChangesOnlyBy :
    (∃ t, step (pend base 1) = .next t ∧ (!t.status.busy) = true) ∧
      (pend base 1).status.busy = true ∧
      (∃ t, step (ask base (.writeReg 0x00 1)) = .next t ∧ t.status.busy = true) ∧
      (ask base (.writeReg 0x00 1)).status.busy = false :=
  ⟨next_of_pick (by decide), by decide, next_of_pick (by decide), by decide⟩

theorem witness_FaultRecordIsKept :
    (ask busy (.readReg 0x14)).faults = [] ∧ step (ask busy (.readReg 0x14)) = .fault .hostBusy ∧
      (advance (ask busy (.readReg 0x14))).faults ≠ [] :=
  ⟨by decide, fault_of_stop (by decide), by decide⟩

theorem witness_OperandFields : (State.setResXY base 65535 65535).resXY = 0xFFFFFFFF := by decide

theorem witness_CapacityFormula :
    capacity ⟨10, 10⟩ = 33 ∧ capacity ⟨2, 2⟩ = -3 ∧ capacity ⟨1, 1⟩ = -4 ∧
      capacity ⟨65535, 65535⟩ = 1610563580 ∧ capacity ⟨65535, 1⟩ = 24571 ∧
      capacity ⟨1920, 1080⟩ = 777596 := by decide

theorem witness_FitsIsFrameFits :
    capacity ⟨2, 2⟩ < 0 ∧ ¬ fits 0 ⟨2, 2⟩ ∧ fits 33 ⟨10, 10⟩ ∧ ¬ fits 34 ⟨10, 10⟩ := by decide

theorem witness_CapacityMonotone :
    base.params.legal ∧ base.validDims ⟨10, 10⟩ ∧ fits 33 ⟨10, 10⟩ ∧ base.validDims ⟨1, 1⟩ := by
  decide

theorem witness_CoordEnumeratesLoopNest :
    (List.range 6).map (coord ⟨1, 2⟩) =
      [⟨.r, 0, 0⟩, ⟨.r, 0, 1⟩, ⟨.g, 0, 0⟩, ⟨.g, 0, 1⟩, ⟨.b, 0, 0⟩, ⟨.b, 0, 1⟩] := by decide

theorem witness_CoordInvertsIndex :
    coord ⟨4, 8⟩ 31 = ⟨.r, 3, 7⟩ ∧ coord ⟨4, 8⟩ 32 = ⟨.g, 0, 0⟩ ∧
      coord ⟨4, 8⟩ 95 = ⟨.b, 3, 7⟩ := by decide

theorem witness_FrameBitsMsbFirst :
    frameBit 1 [(0, 0xA5)] 31 = some true ∧ frameBit 1 [(0, 0xA5)] 32 = some true ∧
      frameBit 1 [] 32 = none := by decide

theorem witness_CapacityCommand :
    ¬ base.validDims base.orgDims ∧
      (∀ s ∈ [{ base with orgDim := 0x000A000A, len := 33 }], s.validDims s.orgDims ∧
        (s.len.toNat : Int) ≤ capacity s.orgDims) ∧
      ∀ s ∈ [{ base with orgDim := 0x000A000A, len := 34 }, { base with orgDim := 0x00020002 }],
        s.validDims s.orgDims ∧ capacity s.orgDims < s.len.toNat := by decide

theorem witness_CoordCommand :
    (∀ s ∈ [{ base with orgDim := 0x00050003, idx := 44 }, { base with orgDim := 0x00050003 }],
      s.validDims s.orgDims ∧ s.idx.toNat < 3 * s.orgDims.w * s.orgDims.h) ∧
    ∀ s ∈ [{ base with orgDim := 0x00050003, idx := 45 }],
      3 * s.orgDims.w * s.orgDims.h ≤ s.idx.toNat := by decide

theorem witness_FramebitCommand :
    (∀ s ∈ [{ p1 with idx := 40 }, { base with len := 0x01020304, idx := 296 }],
      32 + 8 * s.len.toNat ≤ s.idx.toNat ∨
        (32 ≤ s.idx.toNat ∧ s.pbufBytes ≤ (s.idx.toNat - 32) / 8)) ∧
    (State.idx { p1 with idx := 31 }).toNat < 32 ∧
    ∀ s ∈ [{ p1 with idx := 32 }, { p1 with idx := 39 }, { p1 with idx := 32, pin := [] }],
      32 ≤ s.idx.toNat ∧ s.idx.toNat < 32 + 8 * s.len.toNat ∧
        (s.idx.toNat - 32) / 8 < s.pbufBytes ∧
        (bufRead s.pin ((s.idx.toNat - 32) / 8) = some 0xA5 ∨
          bufRead s.pin ((s.idx.toNat - 32) / 8) = none) := by decide

theorem witness_MapCommand :
    ¬ base.validDims base.orgDims ∧
      (∀ s ∈ [{ p1 with len := 2 }], s.validDims s.orgDims ∧ ¬ fits s.len.toNat s.orgDims) ∧
      (∀ s ∈ [{ p1 with idx := 40 }, { p1 with idx := 39 }, { p1 with idx := 32, pin := [] }],
        s.validDims s.orgDims ∧ fits s.len.toNat s.orgDims) ∧
      frameBit p1.len p1.pin 39 = some true ∧ frameBit p1.len [] 32 = none := by decide

theorem witness_ToggleCommand :
    ¬ base.validDims base.modDims ∧
      (∀ s ∈ [{ cellB 5 with pxy := 0x00050000 }], s.modDims.w ≤ s.posX) ∧
      (∀ s ∈ [cellB 5, { cellB 5 with gridB := [] }],
        s.validDims s.modDims ∧ s.posX < s.modDims.w ∧ s.posY < s.modDims.h) ∧
      gridRead (cellB 5).gridB 1 2 = some 5 ∧ (cellB 5).posX = 1 ∧ (cellB 5).posY = 2 := by decide

theorem witness_EncodeErrors :
    ¬ base.validDims base.orgDims ∧
      ∀ s ∈ [{ p1 with len := 2 }, { base with orgDim := 0x00020002 }],
        s.validDims s.orgDims ∧ ¬ fits s.len.toNat s.orgDims := by decide

/-- Program P1's ENCODE meets the hypotheses of the statements about a successful ENCODE. -/
theorem witness_EncodeEmbedsFrame :
    p1.validDims p1.orgDims ∧ fits p1.len.toNat p1.orgDims ∧ cellsHold p1.gridA p1.orgDims ∧
      bytesHold p1.pin p1.len.toNat ∧ outsideGrid p1.orgDims (cellAddr 5 0) :=
  ⟨by decide, by decide, cellsHold_of_all (by decide), bytesHold_of_all (by decide),
    fun x y hx hy h => by
      have hx : x < 5 := hx
      have hy : y < 3 := hy
      unfold cellAddr at h
      omega⟩

theorem witness_EncodeSparsity :
    p1.validDims p1.orgDims ∧ fits p1.len.toNat p1.orgDims ∧
      ∃ t, exec .encode p1 = .next t ∧ (t.gridB == p1Grid) = true :=
  ⟨by decide, by decide, next_of_pick (by decide +kernel)⟩

theorem witness_EncodeToggleOrder :
    Memory.wf p1Grid ∧
      (List.range (32 + 8 * p1.len.toNat)).reverse.Perm (List.range (32 + 8 * p1.len.toNat)) :=
  ⟨by decide, List.reverse_perm _⟩

theorem witness_ReadbitCommand :
    ¬ base.validDims base.orgDims ∧
      (∀ s ∈ [{ cellAB 1 2 with pxy := 0x00000003 }], s.orgDims.h ≤ s.posY) ∧
      (∀ s ∈ [{ cellAB 1 2 with modDim := 0x00050004 }], s.modDims ≠ s.orgDims) ∧
      (∀ s ∈ [cellAB 1 2, { cellAB 1 2 with gridA := [] }, { cellAB 1 2 with gridB := [] }],
        s.validDims s.orgDims ∧ s.modDims = s.orgDims ∧ s.posX < s.orgDims.w ∧
          s.posY < s.orgDims.h) ∧
      gridRead (cellAB 1 2).gridA 0 1 = some 1 ∧ gridRead (cellAB 1 2).gridB 0 1 = some 2 := by
  decide

theorem witness_DecodeChecks :
    ¬ base.validDims base.orgDims ∧
      ∀ s ∈ [{ base with orgDim := 0x000A0001, modDim := 0x000A0001 }],
        s.validDims s.orgDims ∧ s.modDims = s.orgDims ∧
          3 * s.orgDims.w * s.orgDims.h < 32 := by decide

theorem witness_DecodeRecoversBytes :
    p1Coded.validDims p1Coded.orgDims ∧ p1Coded.modDims = p1Coded.orgDims ∧
      32 ≤ 3 * p1Coded.orgDims.w * p1Coded.orgDims.h ∧
      cellsHold p1Coded.gridA p1Coded.orgDims ∧ cellsHold p1Coded.gridB p1Coded.orgDims :=
  ⟨by decide, by decide, by decide, cellsHold_of_all (by decide), cellsHold_of_all (by decide)⟩

theorem witness_EncodeDecodeUninitRead :
    p1Coded.validDims p1Coded.orgDims ∧ fits p1Coded.len.toNat p1Coded.orgDims ∧
      exec .encode { p1Coded with gridA := [] } = .fault .uninitRead ∧
      exec .decode { p1Coded with gridB := [] } = .fault .uninitRead :=
  ⟨by decide, by decide, fault_of_stop (by decide), fault_of_stop (by decide)⟩

/-- 4 by 3 cells, 36 coordinates: four whole bytes. -/
def same : State :=
  { base with orgDim := 0x00040003, modDim := 0x00040003, gridA := plain ⟨4, 3⟩ 0x010203,
              gridB := plain ⟨4, 3⟩ 0x010203 }

theorem witness_IdenticalGridsDecodeEmpty :
    same.validDims same.orgDims ∧ same.modDims = same.orgDims ∧
      4 ≤ 3 * same.orgDims.w * same.orgDims.h / 8 ∧ cellsHold same.gridA same.orgDims ∧
      ∀ x y, gridRead same.gridB x y = gridRead same.gridA x y :=
  ⟨by decide, by decide, by decide, cellsHold_of_all (by decide), fun _ _ => rfl⟩

/-- P1 with its ENCODE pending, two polls of the first `wait` and none of the second. -/
def p1Pending : State := { pend p1 0x00000006 with turns := encodeThenDecode 2 0 }

theorem witness_EncodeDecodeRoundTrip :
    p1Pending.faults = [] ∧ p1Pending.status.busy = true ∧ p1Pending.cmd = 0x00000006 ∧
      p1Pending.turns = encodeThenDecode 2 0 ++ [] ∧ p1Pending.validDims p1Pending.orgDims ∧
      fits p1Pending.len.toNat p1Pending.orgDims ∧
      cellsHold p1Pending.gridA p1Pending.orgDims ∧
      bytesHold p1Pending.pin p1Pending.len.toNat :=
  ⟨by decide, by decide, by decide, by decide, by decide, by decide,
    cellsHold_of_all (by decide), bytesHold_of_all (by decide)⟩

theorem witness_EmptyPayloadRoundTrip :
    same.len = 0 ∧ same.validDims same.orgDims ∧ cellsHold same.gridA same.orgDims ∧
      0 ≤ capacity same.orgDims :=
  ⟨by decide, by decide, cellsHold_of_all (by decide), by decide⟩

theorem witness_RegisterCommandsFrame :
    (∃ t, exec .capacity p1 = .next t ∧ (t.cap == 1) = true) ∧
      (∃ t, exec .coord p1 = .next t ∧ (t.resXY == 0) = true) ∧
      (∃ t, exec .framebit p1 = .next t ∧ (!t.resMisc.bit) = true) ∧
      (∃ t, exec .map { p1 with idx := 33 } = .next t ∧ (t.resXY == 0x00010000) = true) ∧
      ∃ t, exec (readbitOf .b) (cellAB 0x123456 0x123457) = .next t ∧ t.resMisc.bit = true :=
  ⟨next_of_pick (by decide), next_of_pick (by decide), next_of_pick (by decide),
    next_of_pick (by decide), next_of_pick (by decide)⟩

theorem witness_MemoryCommandsFrame :
    (∃ t, exec (toggleOf .r) (cellB 0x123456) = .next t ∧
      (t.gridB == [(cellAddr 1 2, 0x133456)]) = true) ∧
      (∃ t, exec .encode p1 = .next t ∧ (t.gridB == p1Grid) = true) ∧
      ∃ t, exec .decode p1Coded = .next t ∧ (t.pout == [(0, 0xA5)]) = true :=
  ⟨next_of_pick (by decide), next_of_pick (by decide +kernel), next_of_pick (by decide +kernel)⟩

theorem witness_ErrorsWriteNoMemory :
    ∃ t, exec .encode { p1 with len := 2 } = .next t ∧ (t.status.err != 0) = true :=
  next_of_pick (by decide)

theorem witness_ResultsDependOnOperandsOnly :
    (∀ u ∈ [{ p1 with gridB := [(0, 7)], idx := 9, outLen := 4 }],
      u.orgDim = p1.orgDim ∧ u.geomMax = p1.geomMax ∧ u.gridA = p1.gridA ∧ u.len = p1.len ∧
        u.pin = p1.pin) ∧
    (∀ u ∈ [{ p1Coded with len := 9, pin := [], pout := [(3, 1)] }],
      u.orgDim = p1Coded.orgDim ∧ u.geomMax = p1Coded.geomMax ∧ u.gridA = p1Coded.gridA ∧
        u.modDim = p1Coded.modDim ∧ u.gridB = p1Coded.gridB) ∧
    (∃ t, exec .encode p1 = .next t ∧ (t.status.err == 0) = true) ∧
    ∃ t, exec .decode p1Coded = .next t ∧ (t.status.err == 0) = true :=
  ⟨by decide, by decide, next_of_pick (by decide +kernel), next_of_pick (by decide +kernel)⟩

end Sys2Proof.Machine.Tests
end

section
/-! O60 (R16): ENCODE and DECODE read nothing but their operands. Each command's equation per case
gives the second run; ENCODE's plane is then compared cell by cell, DECODE's bytes one by one. -/

namespace Sys2Proof.Machine

/-! ### The operands two states share -/

theorem State.orgDims_congr {s u : State} (h : u.orgDim = s.orgDim) : u.orgDims = s.orgDims :=
  congrArg dimsOf h

theorem State.modDims_congr {s u : State} (h : u.modDim = s.modDim) : u.modDims = s.modDims :=
  congrArg dimsOf h

/-- Dimensions are valid by GEOM_MAX alone (R81). -/
theorem State.validDims_congr {s u : State} (h : u.geomMax = s.geomMax) (d : Dims) :
    u.validDims d ↔ s.validDims d := by
  simp only [State.validDims, State.gridMaxW, State.gridMaxH, h]

/-! ### ENCODE, an equation per case -/

theorem execEncode_of_invalid {s : State} (hv : ¬ s.validDims s.orgDims) :
    execEncode s = .next (s.finish 2) := if_pos hv

theorem execEncode_of_not_fits {s : State} (hv : s.validDims s.orgDims)
    (hf : ¬ fits s.lenNat s.orgDims) :
    execEncode s = .next ((s.setCap (capacity s.orgDims)).finish 3) := by
  unfold execEncode
  rw [if_neg (not_not.2 hv), if_pos hf]
  rfl

theorem execEncode_of_encodedGrid {s : State} {g : Memory 24} (hv : s.validDims s.orgDims)
    (hf : fits s.lenNat s.orgDims)
    (hg : encodedGrid s.orgDims s.len s.pin s.gridA s.gridB = some g) :
    execEncode s = .next (State.finish
      { s.setCap (capacity s.orgDims) with gridB := g, modDim := s.orgDim } 0) := by
  unfold execEncode
  rw [if_neg (not_not.2 hv), if_neg (not_not.2 hf), hg]
  rfl

/-! ### DECODE, an equation per case -/

theorem execDecode_of_invalid {s : State}
    (h : ¬ s.validDims s.orgDims ∨ s.modDims ≠ s.orgDims) :
    execDecode s = .next (s.finish 2) := by
  unfold execDecode
  by_cases hv : s.validDims s.orgDims
  · rw [if_neg (not_not.2 hv), if_pos (h.resolve_left (not_not.2 hv))]
    rfl
  · rw [if_pos hv]
    rfl

theorem execDecode_of_no_prefix {s : State} (hv : s.validDims s.orgDims)
    (hm : s.modDims = s.orgDims) (hn : recoveredBytes s.orgDims < 4) :
    execDecode s = .next (State.finish { s with outLen := 0 } 4) := by
  unfold execDecode
  rw [if_neg (not_not.2 hv), if_neg (not_not.2 hm), if_pos hn]
  rfl

section
variable {s : State} {ds : List Byte} (hv : s.validDims s.orgDims) (hm : s.modDims = s.orgDims)
  (hn : 4 ≤ recoveredBytes s.orgDims)
  (hds : recBytes s.orgDims s.gridA s.gridB (recoveredBytes s.orgDims) = some ds)
include hv hm hn hds

theorem execDecode_of_truncated
    (hl : recoveredBytes s.orgDims - 4 < (bigEndian (ds.take 4)).toNat) :
    execDecode s = .next (State.finish { s with outLen := bigEndian (ds.take 4) } 4) := by
  unfold execDecode
  rw [if_neg (not_not.2 hv), if_neg (not_not.2 hm), if_neg (Nat.not_lt.2 hn), hds]
  exact if_pos hl

theorem execDecode_of_recovered
    (hl : (bigEndian (ds.take 4)).toNat ≤ recoveredBytes s.orgDims - 4) :
    execDecode s = .next (State.finish
      { s with
        pout := bufWriteAll s.pout 0 ((ds.drop 4).take (bigEndian (ds.take 4)).toNat),
        outLen := bigEndian (ds.take 4) } 0) := by
  unfold execDecode
  rw [if_neg (not_not.2 hv), if_neg (not_not.2 hm), if_neg (Nat.not_lt.2 hn), hds]
  exact if_neg (Nat.not_lt.2 hl)

end

/-! ### The plane ENCODE writes does not depend on the plane it finds -/

/-- A toggle reads its own cell only, so two planes with the same value at an address still have
the same value there after the same toggle. -/
theorem toggleCell_read_congr {m n m' n' : Memory 24} {c : Channel} {x y a : Nat}
    (hm : toggleCell m c x y = some m') (hn : toggleCell n c x y = some n')
    (h : Memory.read m a = Memory.read n a) : Memory.read m' a = Memory.read n' a := by
  by_cases ha : a = cellAddr x y
  · subst ha
    obtain ⟨p, hp, rfl⟩ := toggleCell_eq_some.1 hm
    obtain ⟨q, hq, rfl⟩ := toggleCell_eq_some.1 hn
    have hpq : p = q := Option.some.inj (hp.symm.trans (h.trans hq))
    rw [hpq, gridWrite, gridWrite, Memory.read_write_same, Memory.read_write_same]
  · rw [toggleCell_read_other hm ha, toggleCell_read_other hn ha, h]

theorem embedBit_read_congr {d : Dims} {len : Word} {pin : Memory 8} {m n m' n' : Memory 24}
    {k a : Nat} (hm : embedBit d len pin m k = some m') (hn : embedBit d len pin n k = some n')
    (h : Memory.read m a = Memory.read n a) : Memory.read m' a = Memory.read n' a := by
  rcases embedBit_cases hm with ⟨hf, rfl⟩ | ⟨hf, ht⟩
  · rw [embedBit_of_false hf] at hn
    rwa [← Option.some.inj hn]
  · rw [embedBit_of_true hf] at hn
    exact toggleCell_read_congr ht hn h

theorem embedBits_read_congr {d : Dims} {len : Word} {pin : Memory 8} {ks : List Nat}
    {m n m' n' : Memory 24} {a : Nat} (hm : embedBits d len pin ks m = some m')
    (hn : embedBits d len pin ks n = some n') (h : Memory.read m a = Memory.read n a) :
    Memory.read m' a = Memory.read n' a := by
  induction ks generalizing m n with
  | nil => cases hm; cases hn; exact h
  | cons k ks ih =>
    rw [embedBits_cons, Option.bind_eq_some_iff] at hm hn
    obtain ⟨m₁, hm₁, hm⟩ := hm
    obtain ⟨n₁, hn₁, hn⟩ := hn
    exact ih hm hn (embedBit_read_congr hm₁ hn₁ h)

/-- From any two planes B, ENCODE leaves the same cells: the copy overwrites every cell in range
with A's, and the toggles keep the two runs together. -/
theorem encodedGrid_gridRead_congr {d : Dims} {len : Word} {pin : Memory 8}
    {a b b' g g' : Memory 24} (h : encodedGrid d len pin a b = some g)
    (h' : encodedGrid d len pin a b' = some g') {x y : Nat} (hx : x < d.w) (hy : y < d.h) :
    gridRead g x y = gridRead g' x y := by
  obtain ⟨c, hc, he⟩ := encodedGrid_eq_some.1 h
  obtain ⟨c', hc', he'⟩ := encodedGrid_eq_some.1 h'
  have hin : ∃ xy ∈ cellsOf d, cellAddr x y = cellAddr xy.1 xy.2 :=
    ⟨(x, y), mem_cellsOf.2 ⟨hx, hy⟩, rfl⟩
  have hcopy : Memory.read c (cellAddr x y) = Memory.read c' (cellAddr x y) :=
    ((copyCells_read hc _).1 hin).trans ((copyCells_read hc' _).1 hin).symm
  exact embedBits_read_congr he he' hcopy

/-- Whether ENCODE completes does not depend on plane B. -/
theorem encodedGrid_complete_congr {d : Dims} {len : Word} {pin : Memory 8} {a b g : Memory 24}
    (hf : fits len.toNat d) (h : encodedGrid d len pin a b = some g) (b' : Memory 24) :
    ∃ g', encodedGrid d len pin a b' = some g' := by
  have hreads := (encodedGrid_isSome hf).1 (Option.isSome_of_eq_some h)
  exact Option.isSome_iff_exists.1 ((encodedGrid_isSome hf).2 hreads)

/-! ### The bytes DECODE writes do not depend on the buffer it finds -/

/-- The payload bytes written are as many as the prefix says (R154, R158). -/
theorem length_recoveredPayload {d : Dims} {ga gb : Memory 24} {ds : List Byte} {len : Nat}
    (hds : recBytes d ga gb (recoveredBytes d) = some ds) (hl : len ≤ recoveredBytes d - 4) :
    ((ds.drop 4).take len).length = len := by
  have hlen := (recBytes_eq_some.1 hds).1
  rw [List.length_take, List.length_drop, hlen, Nat.min_eq_left hl]

theorem bufRead_bufWriteAll {m : Memory 8} {vs : List Byte} {j : Nat} (hj : j < vs.length) :
    bufRead (bufWriteAll m 0 vs) j = vs[j]? := by
  rw [bufRead, read_bufWriteAll, if_pos ⟨Nat.zero_le j, by omega⟩, Nat.sub_zero]

/-! ### The two commands -/

section
variable {s u t : State} (horg : u.orgDim = s.orgDim) (hgeom : u.geomMax = s.geomMax)
  (hA : u.gridA = s.gridA)
include horg hgeom hA

theorem execEncode_dependsOnOperands (hlen : u.len = s.len) (hpin : u.pin = s.pin)
    (h : execEncode s = .next t) :
    ∃ v, execEncode u = .next v ∧ v.status.err = t.status.err ∧
      (t.status.err ≠ 2 → v.cap = t.cap) ∧
      (t.status.err = 0 → v.modDim = t.modDim ∧
        ∀ x y, x < s.orgDims.w → y < s.orgDims.h →
          gridRead v.gridB x y = gridRead t.gridB x y) := by
  have hd := State.orgDims_congr horg
  have hvalid : u.validDims u.orgDims ↔ s.validDims s.orgDims := by
    rw [State.validDims_congr hgeom, hd]
  have hfits : fits u.lenNat u.orgDims ↔ fits s.lenNat s.orgDims := by
    rw [State.lenNat, State.lenNat, hlen, hd]
  have hcap : (u.setCap (capacity u.orgDims)).cap = (s.setCap (capacity s.orgDims)).cap := by
    rw [State.setCap_cap, State.setCap_cap, hd]
  rcases execEncode_next h with ⟨hv, rfl⟩ | ⟨hv, hf, rfl⟩ | ⟨hv, hf, g, hg, rfl⟩
  · exact ⟨_, execEncode_of_invalid (mt hvalid.1 hv), rfl, fun hne => absurd rfl hne,
      fun h0 => absurd h0 (by simp)⟩
  · exact ⟨_, execEncode_of_not_fits (hvalid.2 hv) (mt hfits.1 hf), rfl, fun _ => hcap,
      fun h0 => absurd h0 (by simp)⟩
  · obtain ⟨g', hg'⟩ := encodedGrid_complete_congr hf hg u.gridB
    have hu : encodedGrid u.orgDims u.len u.pin u.gridA u.gridB = some g' := by
      rw [hd, hlen, hpin, hA, hg']
    exact ⟨_, execEncode_of_encodedGrid (hvalid.2 hv) (hfits.2 hf) hu, rfl, fun _ => hcap,
      fun _ => ⟨horg, fun x y hx hy => encodedGrid_gridRead_congr hg' hg hx hy⟩⟩

theorem execDecode_dependsOnOperands (hmod : u.modDim = s.modDim) (hB : u.gridB = s.gridB)
    (h : execDecode s = .next t) :
    ∃ v, execDecode u = .next v ∧ v.status.err = t.status.err ∧
      (t.status.err ≠ 2 → v.outLen = t.outLen) ∧
      (t.status.err = 0 →
        ∀ j, j < t.outLen.toNat → bufRead v.pout j = bufRead t.pout j) := by
  have hd := State.orgDims_congr horg
  have hvalid : u.validDims u.orgDims ↔ s.validDims s.orgDims := by
    rw [State.validDims_congr hgeom, hd]
  have hsame : u.modDims = u.orgDims ↔ s.modDims = s.orgDims := by
    rw [State.modDims_congr hmod, hd]
  have hnb : recoveredBytes u.orgDims = recoveredBytes s.orgDims := by rw [hd]
  have hrec : recBytes u.orgDims u.gridA u.gridB (recoveredBytes u.orgDims) =
      recBytes s.orgDims s.gridA s.gridB (recoveredBytes s.orgDims) := by rw [hd, hA, hB]
  rcases execDecode_next h with ⟨hbad, rfl⟩ | ⟨hv, hm, hn, rfl⟩ |
    ⟨hv, hm, hn, ds, hds, ⟨hl, rfl⟩ | ⟨hl, rfl⟩⟩
  · exact ⟨_, execDecode_of_invalid (hbad.imp (mt hvalid.1) (mt hsame.1)), rfl,
      fun hne => absurd rfl hne, fun h0 => absurd h0 (by simp)⟩
  · exact ⟨_, execDecode_of_no_prefix (hvalid.2 hv) (hsame.2 hm) (hnb ▸ hn), rfl, fun _ => rfl,
      fun h0 => absurd h0 (by simp)⟩
  · exact ⟨_, execDecode_of_truncated (hvalid.2 hv) (hsame.2 hm) (hnb ▸ hn) (hrec.trans hds)
      (hnb ▸ hl), rfl, fun _ => rfl, fun h0 => absurd h0 (by simp)⟩
  · refine ⟨_, execDecode_of_recovered (hvalid.2 hv) (hsame.2 hm) (hnb ▸ hn) (hrec.trans hds)
      (hnb ▸ hl), rfl, fun _ => rfl, fun _ j hj => ?_⟩
    have hj' := hj.trans_eq (length_recoveredPayload hds hl).symm
    exact (bufRead_bufWriteAll hj').trans (bufRead_bufWriteAll hj').symm

end

/-- Settles O60: ENCODE overwrites plane B before it reads it, and DECODE's bytes come from the
planes alone. -/
theorem resultsDependOnOperandsOnly : Obligations.ResultsDependOnOperandsOnly := by
  intro s u t horg hgeom hA
  exact ⟨execEncode_dependsOnOperands horg hgeom hA, execDecode_dependsOnOperands horg hgeom hA⟩

end Sys2Proof.Machine
end

section
/-! The turns of a run: what the next step is when the host's or the sequencer's move stands next,
and what a host transaction leaves unchanged. -/

namespace Sys2Proof.Machine

/-! ### The next step -/

theorem step_of_sequencerNext {s : State} {ts : List Turn} (h : s.sequencerNext ts) :
    step s = sequencerTurn { s with turns := ts } := by
  obtain ⟨hf, ht | ⟨ht, rfl⟩⟩ := h
  · exact step_of_turn hf ht
  · rw [step_of_no_turn hf ht, ← ht]

/-- With BUSY = 1 the sequencer's move is the perform step (R171). -/
theorem step_of_pending {s : State} {ts : List Turn} (h : s.sequencerNext ts)
    (hb : s.status.busy = true) : step s = perform { s with turns := ts } :=
  (step_of_sequencerNext h).trans (sequencerTurn_busy hb)

/-- What a step can do, by whose move comes next: the sequencer's, the host's or reset. -/
theorem step_cases {s t : State} (h : step s = .next t) :
    (∃ ts, s.sequencerNext ts ∧ sequencerTurn { s with turns := ts } = .next t) ∨
      (∃ x ts, s.nextTurn (.host x) ts ∧ transact x { s with turns := ts } = .next t) ∨
      ∃ ts, s.nextTurn .reset ts ∧ t = resetInput { s with turns := ts } := by
  obtain ⟨hf, hcases⟩ := step_next h
  rcases hcases with ⟨hn, -⟩ | ⟨ts, hs, hq⟩ | ⟨x, ts, hx, hq⟩ | ⟨ts, hr, hq⟩
  · have hnext : s.sequencerNext [] := ⟨hf, .inr ⟨hn, rfl⟩⟩
    exact .inl ⟨[], hnext, (step_of_sequencerNext hnext).symm.trans h⟩
  · exact .inl ⟨ts, ⟨hf, .inl hs⟩, hq⟩
  · exact .inr (.inl ⟨x, ts, ⟨hf, hx⟩, hq⟩)
  · exact .inr (.inr ⟨ts, ⟨hf, hr⟩, hq⟩)

/-- With BUSY = 0 an in-range host transaction is the defined one (R52 to R55). -/
theorem step_of_host_idle {s : State} {x : Transaction} {ts : List Turn}
    (h : s.nextTurn (.host x) ts) (hb : s.status.busy = false) (hr : s.inRange x = true) :
    step s = definedTransact x { s with turns := ts } :=
  (step_of_turn h.1 h.2).trans (transact_idle hb hr)

/-! ### Frames -/

/-- The sequencer's turn writes no operand (R49). -/
theorem sequencerTurn_sameOperands {s t : State} (h : sequencerTurn s = .next t) :
    SameOperands s t := by
  rcases sequencerTurn_next h with ⟨-, rfl⟩ | ⟨-, h⟩
  · constructor <;> rfl
  · exact (perform_frame h).1

/-- Only the host issues a command: the sequencer's turn leaves an idle core idle (R25). -/
theorem sequencerTurn_keeps_idle {s t : State} (h : sequencerTurn s = .next t)
    (hb : s.status.busy = false) : t.status.busy = false := by
  rw [sequencerTurn_idle hb] at h
  cases h
  exact hb

/-- What a host transaction leaves unchanged, unless it is the write to that very place (R49,
R53). -/
structure HostFrame (x : Transaction) (s t : State) : Prop where
  cmd : (∀ v, x ≠ .writeReg 0x00 v) → t.cmd = s.cmd
  busy : (∀ v, x ≠ .writeReg 0x00 v) → t.status.busy = s.status.busy
  orgDim : (∀ v, x ≠ .writeReg 0x08 v) → t.orgDim = s.orgDim
  len : (∀ v, x ≠ .writeReg 0x10 v) → t.len = s.len
  idx : (∀ v, x ≠ .writeReg 0x1C v) → t.idx = s.idx
  pxy : (∀ v, x ≠ .writeReg 0x20 v) → t.pxy = s.pxy
  gridA : (∀ a v, x ≠ .writeGrid .a a v) → t.gridA = s.gridA
  pin : (∀ a v, x ≠ .writePin a v) → t.pin = s.pin
  geomMax : t.geomMax = s.geomMax
  pbufSize : t.pbufSize = s.pbufSize

theorem regWrite_hostFrame (s : State) (a v : Word) :
    HostFrame (.writeReg a v) s (s.regWrite a.toNat v) := by
  rcases regWrite_cases s a.toNat v with
    e | ⟨ha, e⟩ | ⟨ha, e⟩ | ⟨ha, e⟩ | ⟨ha, e⟩ | ⟨ha, e⟩ | ⟨ha, e⟩ | ⟨ha, e⟩ <;> rw [e]
  · constructor <;> simp
  all_goals constructor <;> simp [← BitVec.toNat_inj, ha]

theorem transact_hostFrame {s t : State} {x : Transaction} (h : transact x s = .next t) :
    HostFrame x s t := by
  obtain ⟨-, -, h⟩ := transact_next h
  rcases definedTransact_next h with ⟨r, rfl⟩ | ⟨a, v, rfl, rfl⟩ | ⟨p, a, d, rfl, rfl⟩ |
    ⟨a, v, rfl, rfl⟩ | ⟨a, v, rfl, rfl⟩
  · constructor <;> intros <;> rfl
  · exact { regWrite_hostFrame s a v with }
  · cases p
    · constructor
      case gridA => exact fun h => absurd rfl (h a d)
      all_goals intros; rfl
    · constructor <;> intros <;> rfl
  · constructor
    case pin => exact fun h => absurd rfl (h a v)
    all_goals intros; rfl
  · constructor <;> intros <;> rfl

/-- Every step, reset included, keeps the constant registers (R38, R39). -/
theorem step_keeps_constants {s t : State} (h : step s = .next t) :
    t.geomMax = s.geomMax ∧ t.pbufSize = s.pbufSize := by
  rcases step_cases h with ⟨ts, -, h⟩ | ⟨x, ts, -, h⟩ | ⟨ts, -, rfl⟩
  · exact ⟨(sequencerTurn_sameOperands h).geomMax, (sequencerTurn_sameOperands h).pbufSize⟩
  · exact ⟨(transact_hostFrame h).geomMax, (transact_hostFrame h).pbufSize⟩
  · exact ⟨rfl, rfl⟩

end Sys2Proof.Machine
end

section
/-! O27: every step keeps the invariant. Each update of the state keeps it by itself. The updates
inside a perform step need BUSY = 1, because RES_XY, CAP and the other results must stay at their
reset values until the first command ends; the end of the perform step sets DONE. -/

namespace Sys2Proof.Machine

/-! ### Addresses within the build -/

/-- The condition `State.gridFits` puts on every address of a plane (R43). -/
abbrev State.cellInBuild (s : State) (k : Nat) : Prop :=
  k / 65536 < s.gridMaxW ∧ k % 65536 < s.gridMaxH

/-- A cell of valid dimensions is a cell of the build (R72). -/
theorem cellAddr_inBuild {s : State} {d : Dims} (hv : s.validDims d) {x y : Nat} (hx : x < d.w)
    (hy : y < d.h) : s.cellInBuild (cellAddr x y) := by
  have hy' : y < 65536 := hy.trans (State.validDims_lt hv).2.2.2
  rw [State.cellInBuild, cellAddr_div hy', cellAddr_mod hy']
  exact ⟨hx.trans_le hv.1.2, hy.trans_le hv.2.2⟩

/-- An in-range host address of a grid space is a cell of the build (R54). -/
theorem cellAddr_host_inBuild {s : State} {a : Word} (h : s.gridInRange a) :
    s.cellInBuild (cellAddr (hi16 a).toNat (lo16 a).toNat) := by
  rw [State.cellInBuild, cellAddr_host, ← hi16_toNat, ← lo16_toNat]
  exact h

/-- A write to a cell of the build keeps a plane canonical and within the build. -/
theorem gridWrite_inBuild {s : State} {g : Memory 24} (hg : Memory.wf g ∧ s.gridFits g) {x y : Nat}
    (hxy : s.cellInBuild (cellAddr x y)) (v : Pixel) :
    Memory.wf (gridWrite g x y v) ∧ s.gridFits (gridWrite g x y v) :=
  ⟨Memory.write_wf hg.1 _ v, Memory.write_all (P := s.cellInBuild) hg.2 hxy v⟩

/-- The recovered bytes of valid dimensions, less the four of the length, fit the buffers of a legal
build (R9, R152). -/
theorem recoveredBytes_le_pbufBytes {s : State} {d : Dims} (hp : s.params.legal)
    (hv : s.validDims d) : recoveredBytes d - 4 ≤ s.pbufBytes := by
  have harea := area_mono (e := { w := s.gridMaxW, h := s.gridMaxH }) hv.1.2 hv.2.2
  obtain ⟨-, -, hbuf, -⟩ := hp
  exact (Nat.sub_le_sub_right (Nat.div_le_div_right harea) 4).trans hbuf

theorem Channel.code_ne_three (c : Channel) : c.code ≠ 3 := by cases c <;> decide

/-! ### The updates of a perform step -/

namespace State.Inv

section
variable {s : State} (h : s.Inv) (hb : s.status.busy = true)
include h

theorem finish {code : BitVec 4} (hc : code.toNat ≤ 4) : (s.finish code).Inv :=
  { h with err := hc, busyDone := by simp, idle := by simp }

include hb

theorem setCap {d : Dims} (hv : s.validDims d) : (s.setCap (capacity d)).Inv :=
  { h with
    idle := by simp [hb]
    cap := by rw [setCap_cap, capWord_toInt hv]; exact capacity_range hv }

theorem setResBit (b : Bool) : (s.setResBit b).Inv :=
  { h with idle := by simp [hb] }

theorem setResCoord (p : Coord) : (s.setResCoord p).Inv :=
  { h with
    idle := by simp [hb]
    ch := Channel.code_ne_three p.c }

theorem setOutLen (v : Word) : State.Inv { s with outLen := v } :=
  { h with idle := by simp [hb] }

theorem setPout {m : Memory 8} (hm : Memory.wf m ∧ s.bufFits m) : State.Inv { s with pout := m } :=
  { h with
    pout := hm
    idle := by simp [hb] }

omit hb in
theorem setGridB {g : Memory 24} (hg : Memory.wf g ∧ s.gridFits g) :
    State.Inv { s with gridB := g } :=
  { h with gridB := hg }

omit hb in
theorem setModDim (v : Word) : State.Inv { s with modDim := v } := { h with }

end

/-! ### The commands -/

section
variable {s t : State} (h : s.Inv) (hb : s.status.busy = true)
include h hb

theorem execCapacity (ht : execCapacity s = .next t) : t.Inv := by
  rcases execCapacity_next ht with ⟨-, rfl⟩ | ⟨hv, -, rfl⟩ | ⟨hv, -, rfl⟩
  · exact h.finish (by decide)
  · exact (h.setCap hb hv).finish (by decide)
  · exact (h.setCap hb hv).finish (by decide)

theorem execCoord (ht : execCoord s = .next t) : t.Inv := by
  rcases execCoord_next ht with ⟨-, rfl⟩ | ⟨-, -, rfl⟩
  · exact h.finish (by decide)
  · exact (h.setResCoord hb _).finish (by decide)

theorem execFramebit (ht : execFramebit s = .next t) : t.Inv := by
  rcases execFramebit_next ht with ⟨-, rfl⟩ | ⟨-, -, b, -, rfl⟩
  · exact h.finish (by decide)
  · exact (h.setResBit hb b).finish (by decide)

theorem execMap (ht : execMap s = .next t) : t.Inv := by
  rcases execMap_next ht with ⟨-, rfl⟩ | ⟨hv, -, rfl⟩ | ⟨hv, -, -, rfl⟩ | ⟨hv, -, -, b, -, rfl⟩
  · exact h.finish (by decide)
  · exact (h.setCap hb hv).finish (by decide)
  · exact (h.setCap hb hv).finish (by decide)
  · exact (((h.setCap hb hv).setResCoord hb _).setResBit hb b).finish (by decide)

omit hb in
theorem toggleCommand {c : Channel} (ht : toggleCommand c s = .next t) : t.Inv := by
  rcases toggleCommand_next ht with ⟨-, rfl⟩ | ⟨hv, hx, hy, g, hg, rfl⟩
  · exact h.finish (by decide)
  · obtain ⟨p, -, rfl⟩ := toggleCell_eq_some.1 hg
    exact (h.setGridB (gridWrite_inBuild h.gridB (cellAddr_inBuild hv hx hy) _)).finish (by decide)

theorem execEncode (ht : execEncode s = .next t) : t.Inv := by
  rcases execEncode_next ht with ⟨-, rfl⟩ | ⟨hv, -, rfl⟩ | ⟨hv, hf, g, hg, rfl⟩
  · exact h.finish (by decide)
  · exact (h.setCap hb hv).finish (by decide)
  · have hB : Memory.wf g ∧ s.gridFits g :=
      ⟨encodedGrid_wf hg h.gridB.1,
        encodedGrid_all (P := s.cellInBuild) hf hg h.gridB.2 fun _ _ => cellAddr_inBuild hv⟩
    exact (((h.setCap hb hv).setGridB hB).setModDim _).finish (by decide)

theorem readbitCommand {c : Channel} (ht : readbitCommand c s = .next t) : t.Inv := by
  rcases readbitCommand_next ht with ⟨-, rfl⟩ | ⟨-, -, -, -, b, -, rfl⟩
  · exact h.finish (by decide)
  · exact (h.setResBit hb b).finish (by decide)

theorem execDecode (ht : execDecode s = .next t) : t.Inv := by
  rcases execDecode_next ht with ⟨-, rfl⟩ | ⟨-, -, -, rfl⟩ |
    ⟨hv, -, -, ds, hds, ⟨-, rfl⟩ | ⟨hl, rfl⟩⟩
  · exact h.finish (by decide)
  · exact (h.setOutLen hb _).finish (by decide)
  · exact (h.setOutLen hb _).finish (by decide)
  · have hlen := length_recoveredPayload hds hl
    have hfit := hl.trans (recoveredBytes_le_pbufBytes h.params hv)
    have hpout := bufWriteAll_all (P := (· < s.pbufBytes)) h.pout.2 0 _
      fun k _ hk => by rw [hlen, Nat.zero_add] at hk; exact hk.trans_le hfit
    exact ((h.setPout hb ⟨bufWriteAll_wf h.pout.1 0 _, hpout⟩).setOutLen hb _).finish (by decide)

theorem exec {i : Instr} (ht : exec i s = .next t) : t.Inv := by
  cases i with
  | capacity => exact h.execCapacity hb ht
  | coord => exact h.execCoord hb ht
  | framebit => exact h.execFramebit hb ht
  | map => exact h.execMap hb ht
  | toggleR => exact h.toggleCommand (c := .r) ht
  | toggleG => exact h.toggleCommand (c := .g) ht
  | toggleB => exact h.toggleCommand (c := .b) ht
  | encode => exact h.execEncode hb ht
  | readbitR => exact h.readbitCommand (c := .r) hb ht
  | readbitG => exact h.readbitCommand (c := .g) hb ht
  | readbitB => exact h.readbitCommand (c := .b) hb ht
  | decode => exact h.execDecode hb ht

theorem perform (ht : perform s = .next t) : t.Inv := by
  rcases perform_next ht with ⟨-, rfl⟩ | ⟨i, -, ht⟩
  · exact h.finish (by decide)
  · exact h.exec hb ht

end

/-! ### The turns -/

section
variable {s t : State} (h : s.Inv)
include h

theorem sequencerTurn (ht : sequencerTurn s = .next t) : t.Inv := by
  rcases sequencerTurn_next ht with ⟨-, rfl⟩ | ⟨hb, ht⟩
  · exact h
  · exact h.perform hb ht

theorem setTurns (ts : List Turn) : State.Inv { s with turns := ts } := { h with }

theorem setReply (r : Option Reply) : State.Inv { s with reply := r } := { h with }

/-- A host write to STATUS clears STICKY at most, so a core before its first command stays as it
is. -/
theorem hostWriteStatus (v : Word) : State.Inv { s with status := s.status.hostWrite v } :=
  { h with
    idle := fun hb hd => by
      obtain ⟨hcmd, herr, hsticky, hrest⟩ := h.idle hb hd
      exact ⟨hcmd, herr, by simp [hsticky], hrest⟩ }

theorem regWrite (off : Nat) (v : Word) : (s.regWrite off v).Inv := by
  rcases regWrite_cases s off v with
    e | ⟨-, e⟩ | ⟨-, e⟩ | ⟨-, e⟩ | ⟨-, e⟩ | ⟨-, e⟩ | ⟨-, e⟩ | ⟨-, e⟩ <;> rw [e]
  · exact h
  · exact { h with busyDone := by simp, idle := by simp }
  · exact h.hostWriteStatus v
  all_goals exact { h with }

theorem writeGrid {a : Word} (ha : s.gridInRange a) (p : Plane) (v : Pixel) :
    (s.setPlane p (gridWrite (s.plane p) (hi16 a).toNat (lo16 a).toNat v)).Inv := by
  cases p with
  | a => exact { h with gridA := gridWrite_inBuild h.gridA (cellAddr_host_inBuild ha) v }
  | b => exact { h with gridB := gridWrite_inBuild h.gridB (cellAddr_host_inBuild ha) v }

theorem writePin {a : Word} (ha : s.bufInRange a) (v : Byte) :
    State.Inv { s with pin := Memory.write s.pin a.toNat v } :=
  { h with
    pin := ⟨Memory.write_wf h.pin.1 _ v,
      Memory.write_all (P := (· < s.pbufBytes)) h.pin.2 ha v⟩ }

theorem transact {x : Transaction} (ht : transact x s = .next t) : t.Inv := by
  obtain ⟨-, hrange, ht⟩ := transact_next ht
  rcases definedTransact_next ht with ⟨r, rfl⟩ | ⟨a, v, rfl, rfl⟩ | ⟨p, a, d, rfl, rfl⟩ |
    ⟨a, v, rfl, rfl⟩ | ⟨a, v, rfl, rfl⟩
  · exact h.setReply _
  · exact (h.regWrite _ v).setReply _
  · exact (h.writeGrid (of_decide_eq_true hrange) p _).setReply _
  · exact (h.writePin (of_decide_eq_true hrange) v).setReply _
  · exact h.setReply _

/-- After reset every memory is empty and every register 0, so only the parameters matter. -/
theorem resetInput : (resetInput s).Inv where
  params := h.params
  gridA := ⟨.nil, by simp⟩
  gridB := ⟨.nil, by simp⟩
  pin := ⟨.nil, by simp⟩
  pout := ⟨.nil, by simp⟩
  err := by simp
  busyDone := by simp
  idle _ _ := by simp [State.fresh]
  ch := by simp
  cap := by simp

end

end State.Inv

/-- Settles O27: the sequencer's turn, a host transaction and the reset input each keep the
invariant. -/
theorem stepKeepsInvariant : Obligations.StepKeepsInvariant := by
  intro s t h ht
  rcases step_cases ht with ⟨ts, -, ht⟩ | ⟨x, ts, -, ht⟩ | ⟨ts, -, rfl⟩
  · exact (h.setTurns ts).sequencerTurn ht
  · exact (h.setTurns ts).transact ht
  · exact (h.setTurns ts).resetInput

end Sys2Proof.Machine
end

section
/-! O10, O11, O19: STATUS and RES_MISC bit by bit, the life of STICKY, and the register map as the
host reads it. -/

namespace Sys2Proof.Machine

/-! ### The words of STATUS and RES_MISC -/

/-- A bit of the STATUS word, from bit 0 up (R24). -/
theorem Status.word_getLsbD (st : Status) (k : Nat) :
    st.word.getLsbD k =
      if k = 0 then st.busy
      else if k = 1 then st.done
      else if k < 4 then false
      else if k < 8 then st.err.getLsbD (k - 4)
      else if k = 8 then st.sticky
      else false := by
  simp only [Status.word, BitVec.getLsbD_append, BitVec.getLsbD_ofBool, BitVec.getLsbD_zero]
  grind

/-- A bit of the RES_MISC word, from bit 0 up (R37). -/
theorem ResMisc.word_getLsbD (m : ResMisc) (k : Nat) :
    m.word.getLsbD k =
      if k < 2 then m.ch.getLsbD k else if k = 8 then m.bit else false := by
  simp only [ResMisc.word, BitVec.getLsbD_append, BitVec.getLsbD_ofBool, BitVec.getLsbD_zero]
  grind

theorem statusWord_layout (st : Status) :
    st.word.getLsbD 0 = st.busy ∧ st.word.getLsbD 1 = st.done ∧
      (∀ k, k < 4 → st.word.getLsbD (4 + k) = st.err.getLsbD k) ∧
      st.word.getLsbD 8 = st.sticky ∧
      ∀ k, (k = 2 ∨ k = 3 ∨ 9 ≤ k) → st.word.getLsbD k = false := by
  simp only [Status.word_getLsbD]
  refine ⟨rfl, rfl, fun k hk => ?_, rfl, fun k hk => ?_⟩
  · rw [if_neg (by omega), if_neg (by omega), if_neg (by omega), if_pos (by omega),
      Nat.add_sub_cancel_left]
  · rcases hk with rfl | rfl | hk
    · rfl
    · rfl
    · rw [if_neg (by omega), if_neg (by omega), if_neg (by omega), if_neg (by omega),
        if_neg (by omega)]

theorem resMiscWord_layout (m : ResMisc) :
    (∀ k, k < 2 → m.word.getLsbD k = m.ch.getLsbD k) ∧ m.word.getLsbD 8 = m.bit ∧
      ∀ k, ((2 ≤ k ∧ k ≤ 7) ∨ 9 ≤ k) → m.word.getLsbD k = false := by
  simp only [ResMisc.word_getLsbD]
  refine ⟨fun k hk => if_pos hk, rfl, fun k hk => ?_⟩
  rw [if_neg (by omega), if_neg (by omega)]

/-! ### A host write to STATUS -/

/-- STICKY after a host write to STATUS, as R28 words it. -/
theorem Status.hostWrite_eq_ite (st : Status) (v : Word) :
    st.hostWrite v = { st with sticky := if v.getLsbD 8 then false else st.sticky } := by
  unfold Status.hostWrite
  cases v.getLsbD 8 <;> simp

theorem step_of_write_status {s : State} {ts : List Turn} {v : Word}
    (h : s.nextTurn (.host (.writeReg 0x04 v)) ts) (hb : s.status.busy = false) :
    step s = .next { s with turns := ts, reply := none,
                            status := { s.status with sticky :=
                              (if v.getLsbD 8 then false else s.status.sticky) } } := by
  rw [← Status.hostWrite_eq_ite]
  exact step_of_host_idle h hb (decide_eq_true (by decide : regInRange 0x04))

/-- Settles O10: the bits of both words, and the step a host write to STATUS takes. -/
theorem statusAndResMiscLayout : Obligations.StatusAndResMiscLayout :=
  ⟨statusWord_layout, fun _ _ _ h hb => step_of_write_status h hb, resMiscWord_layout⟩

/-! ### STICKY -/

/-- A perform step sets STICKY when its ERR is not 0 and never clears it (R28). -/
theorem perform_sticky {s t : State} (h : perform s = .next t) :
    t.status.sticky = (s.status.sticky || t.status.err != 0) := by
  obtain ⟨-, code, -, ht⟩ := perform_frame h
  rw [ht, Status.finish_sticky, Status.finish_err]

/-- Settles O11: the perform step by its frame, the host write by its step, and the reset input. -/
theorem stickyLife : Obligations.StickyLife := by
  refine ⟨fun s ts t hnext hb h => ?_, fun s ts v hnext hv => ⟨fun hb => ?_, fun hb => ?_⟩,
    fun s ts hnext => ?_⟩
  · rw [step_of_pending hnext hb] at h
    exact (perform_sticky h :)
  · exact ⟨_, step_of_write_status hnext hb, if_pos hv⟩
  · exact (step_of_turn hnext.1 hnext.2).trans (transact_busy hb nofun)
  · exact ⟨_, step_of_turn hnext.1 hnext.2, rfl⟩

/-! ### Reads of the register map -/

/-- Settles O19: every offset of R22 is in range and selects its register. -/
theorem registerMapReads : Obligations.RegisterMapReads := by
  intro s ts a hnext hb v hv
  have hmap : regInRange a ∧ s.regRead a.toNat = v := by
    simp only [List.mem_cons, Prod.mk.injEq, List.not_mem_nil, or_false] at hv
    rcases hv with ⟨rfl, rfl⟩ | ⟨rfl, rfl⟩ | ⟨rfl, rfl⟩ | ⟨rfl, rfl⟩ | ⟨rfl, rfl⟩ | ⟨rfl, rfl⟩ |
      ⟨rfl, rfl⟩ | ⟨rfl, rfl⟩ | ⟨rfl, rfl⟩ | ⟨rfl, rfl⟩ | ⟨rfl, rfl⟩ | ⟨rfl, rfl⟩ | ⟨rfl, rfl⟩ <;>
      exact ⟨by decide, rfl⟩
  obtain ⟨hrange, rfl⟩ := hmap
  exact step_of_host_idle hnext hb (decide_eq_true hrange)

end Sys2Proof.Machine
end

section
/-! O28, O29, O30, O31: what a step keeps of the operands, the constant registers and BUSY, and what
a run keeps of the record of model faults. -/

namespace Sys2Proof.Machine

/-- Settles O28: the sequencer writes no operand, and the host only the place it names. -/
theorem onlyHostWritesOperands : Obligations.OnlyHostWritesOperands := by
  intro s t h hreset
  rcases step_cases h with ⟨ts, -, h⟩ | ⟨x, ts, ⟨-, hx⟩, h⟩ | ⟨ts, ⟨-, hr⟩, -⟩
  · have hsame := sequencerTurn_sameOperands h
    exact ⟨fun _ => hsame.cmd, fun _ => hsame.orgDim, fun _ => hsame.len, fun _ => hsame.idx,
      fun _ => hsame.pxy, fun _ => hsame.gridA, fun _ => hsame.pin⟩
  · have hframe := transact_hostFrame h
    have other {y : Transaction} (hn : s.turns ≠ .host y :: ts) : x ≠ y :=
      fun e => hn (e ▸ hx)
    exact ⟨fun hn => hframe.cmd fun v => other (hn v ts),
      fun hn => hframe.orgDim fun v => other (hn v ts),
      fun hn => hframe.len fun v => other (hn v ts),
      fun hn => hframe.idx fun v => other (hn v ts),
      fun hn => hframe.pxy fun v => other (hn v ts),
      fun hn => hframe.gridA fun a v => other (hn a v ts),
      fun hn => hframe.pin fun a v => other (hn a v ts)⟩
  · exact absurd hr (hreset ts)

/-- A word is its two halves (R38). -/
theorem toNat_eq_hi16_lo16 (w : Word) : w.toNat = 65536 * (hi16 w).toNat + (lo16 w).toNat := by
  rw [hi16_toNat, lo16_toNat, Nat.div_add_mod]

/-- Settles O29: no step writes GEOM_MAX or PBUF_SIZE, from which the parameters are read. -/
theorem constantRegistersKeep : Obligations.ConstantRegistersKeep := by
  intro s t h
  obtain ⟨hgeom, hpbuf⟩ := step_keeps_constants h
  refine ⟨hgeom, hpbuf, ?_, congrArg BitVec.toNat hpbuf.symm⟩
  rw [State.gridMaxW, State.gridMaxH, hgeom]
  exact toNat_eq_hi16_lo16 s.geomMax

/-- Settles O30: with BUSY = 1 the host's one transaction is the read of STATUS, and no transaction
but a write to CMD changes BUSY. -/
theorem busyChangesOnlyBy : Obligations.BusyChangesOnlyBy := by
  intro s t h
  rcases step_cases h with ⟨ts, ⟨-, hnext⟩, h⟩ | ⟨x, ts, ⟨-, hx⟩, h⟩ | ⟨ts, ⟨-, hr⟩, rfl⟩
  · constructor
    · intro _ _
      exact hnext.elim (fun hseq => .inr (.inl ⟨ts, hseq⟩)) (fun hnone => .inl hnone.1)
    · intro hs ht
      exact absurd (ht.symm.trans (sequencerTurn_keeps_idle h hs)) (by decide)
  · have hbusy := (transact_hostFrame h).busy
    constructor
    · intro hs ht
      obtain ⟨hread, -, -⟩ := transact_next h
      obtain rfl := hread hs
      exact absurd (hs.symm.trans ((hbusy nofun).symm.trans ht)) (by decide)
    · intro hs ht
      by_contra hn
      push Not at hn
      have hsame := hbusy fun v e => hn v ts (e ▸ hx)
      exact absurd (ht.symm.trans (hsame.trans hs)) (by decide)
  · exact ⟨fun _ _ => .inr (.inr ⟨ts, hr⟩), fun _ ht => absurd ht (by simp)⟩

/-! ### The record of model faults -/

theorem advance_of_faulted {s : State} (h : s.faults ≠ []) : advance s = s := if_pos h

theorem advance_of_fault {s : State} {f : Fault} (hs : s.faults = []) (h : step s = .fault f) :
    advance s = s.recordFault f := by simp [advance, hs, h]

/-- One move of a run keeps the recorded faults (R47). -/
theorem faults_isPrefix_advance (s : State) : s.faults <+: (advance s).faults := by
  by_cases hs : s.faults = []
  · rw [hs]; exact List.nil_prefix
  · rw [advance_of_faulted hs]

theorem faults_isPrefix_run (s : State) (n : Nat) : s.faults <+: (run n s).faults := by
  induction n generalizing s with
  | zero => exact List.prefix_rfl
  | succ n ih => exact (faults_isPrefix_advance s).trans (ih (advance s))

/-- Settles O31: by induction on the moves of the run, each of which extends the record. -/
theorem faultRecordIsKept : Obligations.FaultRecordIsKept := by
  refine ⟨fun _ => rfl, fun s f hs h => ?_, faults_isPrefix_run, fun s n hs hend => ?_⟩
  · rw [advance_of_fault hs h, State.recordFault_faults, hs, List.nil_append]
  · have hrun : (run n s).faults = [] := hend.2.2
    exact hs (List.prefix_nil.1 (hrun ▸ faults_isPrefix_run s n))

end Sys2Proof.Machine
end

section
/-! O57, O58 (R49): the write set of each command, read off what the command can do. -/

namespace Sys2Proof.Machine

theorem exec_toggleOf (c : Channel) (s : State) : exec (toggleOf c) s = toggleCommand c s := by
  cases c <;> rfl

theorem exec_readbitOf (c : Channel) (s : State) : exec (readbitOf c) s = readbitCommand c s := by
  cases c <;> rfl

/-- Settles O57: each end of each of these commands writes fields of its row of R49 only. -/
theorem registerCommandsFrame : Obligations.RegisterCommandsFrame := by
  intro s t
  refine ⟨fun h => ?_, fun h => ?_, fun h => ?_, fun h => ?_, fun c h => ?_⟩
  · rcases execCapacity_next h with ⟨-, rfl⟩ | ⟨-, -, rfl⟩ | ⟨-, -, rfl⟩ <;> rfl
  · rcases execCoord_next h with ⟨-, rfl⟩ | ⟨-, -, rfl⟩ <;> rfl
  · rcases execFramebit_next h with ⟨-, rfl⟩ | ⟨-, -, b, -, rfl⟩ <;> rfl
  · rcases execMap_next h with
      ⟨-, rfl⟩ | ⟨-, -, rfl⟩ | ⟨-, -, -, rfl⟩ | ⟨-, -, -, b, -, rfl⟩ <;> rfl
  · rw [exec_readbitOf] at h
    rcases readbitCommand_next h with ⟨-, rfl⟩ | ⟨-, -, -, -, b, -, rfl⟩ <;> rfl

theorem toggleCommand_frame {c : Channel} {s t : State} (h : toggleCommand c s = .next t) :
    t = { s with status := t.status, gridB := t.gridB } ∧
      ∀ a, a ≠ cellAddr s.posX s.posY → Memory.read t.gridB a = Memory.read s.gridB a := by
  rcases toggleCommand_next h with ⟨-, rfl⟩ | ⟨-, -, -, g, hg, rfl⟩
  · exact ⟨rfl, fun _ _ => rfl⟩
  · exact ⟨rfl, fun _ ha => toggleCell_read_other hg ha⟩

theorem execEncode_frame {s t : State} (h : execEncode s = .next t) :
    t = { s with status := t.status, cap := t.cap, modDim := t.modDim, gridB := t.gridB } ∧
      ∀ a, outsideGrid s.orgDims a → Memory.read t.gridB a = Memory.read s.gridB a := by
  rcases execEncode_next h with ⟨-, rfl⟩ | ⟨-, -, rfl⟩ | ⟨hv, hf, g, hg, rfl⟩
  · exact ⟨rfl, fun _ _ => rfl⟩
  · exact ⟨rfl, fun _ _ => rfl⟩
  · exact ⟨rfl, (encodedGrid_read (State.validDims_lt hv).2.2.2 hf hg).2⟩

theorem execDecode_frame {s t : State} (h : execDecode s = .next t) :
    t = { s with status := t.status, outLen := t.outLen, pout := t.pout } ∧
      ∀ a, t.outLen.toNat ≤ a → Memory.read t.pout a = Memory.read s.pout a := by
  rcases execDecode_next h with ⟨-, rfl⟩ | ⟨-, -, -, rfl⟩ |
    ⟨-, -, -, ds, hds, ⟨-, rfl⟩ | ⟨hl, rfl⟩⟩
  · exact ⟨rfl, fun _ _ => rfl⟩
  · exact ⟨rfl, fun _ _ => rfl⟩
  · exact ⟨rfl, fun _ _ => rfl⟩
  · refine ⟨rfl, fun a ha => (read_bufWriteAll s.pout 0 _ a).trans (if_neg ?_)⟩
    rw [length_recoveredPayload hds hl, Nat.zero_add]
    exact fun hin => Nat.not_lt.2 ha hin.2

/-- Settles O58: TOGGLE by its one cell, ENCODE by its grid, DECODE by its OUT_LEN bytes. -/
theorem memoryCommandsFrame : Obligations.MemoryCommandsFrame := fun s _ =>
  ⟨fun c h => toggleCommand_frame ((exec_toggleOf c s).symm.trans h), execEncode_frame,
    execDecode_frame⟩

end Sys2Proof.Machine
end

section
/-! O17, O18, O20 to O25 (R50 to R62): host transactions. The range checks in arithmetic, one
equation for the step of each kind of transaction, and what a read depends on. -/

namespace Sys2Proof.Machine

theorem step_of_host {s : State} {x : Transaction} {ts : List Turn}
    (h : s.nextTurn (.host x) ts) : step s = transact x { s with turns := ts } :=
  step_of_turn h.1 h.2

/-- Settles O17: STATUS is answered at all times, and BUSY is bit 0 of its word. -/
theorem onlyStatusReadWhileBusy : Obligations.OnlyStatusReadWhileBusy := by
  intro s ts t h hb
  refine ⟨?_, fun hne => (step_of_host h).trans (transact_busy hb hne)⟩
  rintro rfl
  obtain ⟨hbusy, -⟩ := statusWord_layout s.status
  exact ⟨(step_of_host h).trans (transact_status _), hbusy.trans hb⟩

/-! ### Ranges -/

theorem not_regInRange_iff (a : Word) :
    ¬ regInRange a ↔ 0xFC < a.toNat ∨ a.toNat % 4 ≠ 0 := by
  unfold regInRange; omega

/-- The two halves of a grid address, as R54 counts them. -/
theorem State.gridInRange_iff (s : State) (a : Word) :
    s.gridInRange a ↔ a.toNat / 65536 < s.gridMaxW ∧ a.toNat % 65536 < s.gridMaxH := by
  rw [State.gridInRange, hi16_toNat, lo16_toNat]

theorem State.not_gridInRange_iff (s : State) (a : Word) :
    ¬ s.gridInRange a ↔ s.gridMaxW ≤ a.toNat / 65536 ∨ s.gridMaxH ≤ a.toNat % 65536 := by
  rw [State.gridInRange_iff]; omega

/-- The model's range check is the one of R51, R54 and R55. -/
theorem inRange_eq_false_iff (s : State) (x : Transaction) :
    s.inRange x = false ↔ outOfRange s x := by
  cases x with
  | readReg a | writeReg a _ => exact decide_eq_false_iff_not.trans (not_regInRange_iff a)
  | readGrid _ a | writeGrid _ a _ =>
    exact decide_eq_false_iff_not.trans (s.not_gridInRange_iff a)
  | readPin a | writePin a _ | readPout a | writePout a _ =>
    exact decide_eq_false_iff_not.trans Nat.not_lt

theorem readReply_ne_hostRange (s : State) (v : Option Reply) :
    readReply s v ≠ .fault .hostRange := by
  cases v <;> nofun

/-- Past the range check nothing raises HOST_RANGE. -/
theorem definedTransact_ne_hostRange (s : State) (x : Transaction) :
    definedTransact x s ≠ .fault .hostRange := by
  cases x with
  | readGrid _ _ | readPin _ | readPout _ => exact readReply_ne_hostRange _ _
  | readReg _ | writeReg _ _ | writeGrid _ _ _ | writePin _ _ | writePout _ _ => nofun

/-- Settles O18: the range check raises HOST_RANGE, and nothing after it does. -/
theorem outOfRangeFaults : Obligations.OutOfRangeFaults := by
  intro s ts t h hb
  rw [← inRange_eq_false_iff]
  cases hr : s.inRange t with
  | false => exact iff_of_true ((step_of_host h).trans (transact_range hb hr)) rfl
  | true =>
    rw [step_of_host_idle h hb hr]
    exact iff_of_false (definedTransact_ne_hostRange _ t) (by decide)

/-! ### Registers -/

/-- From 0x34 up there is no register to read (R52). -/
theorem regRead_unmapped (s : State) {off : Nat} (h : 0x34 ≤ off) : s.regRead off = 0 := by
  obtain ⟨n, rfl⟩ := Nat.exists_eq_add_of_le' h
  rfl

/-- A write to an offset with no register, or with a read-only one, is ignored (R52, R53). -/
theorem regWrite_ignored (s : State) {off : Nat} (v : Word)
    (h : off ∉ [0x00, 0x04, 0x08, 0x0C, 0x10, 0x1C, 0x20]) : s.regWrite off v = s := by
  rcases regWrite_cases s off v with
    e | ⟨rfl, -⟩ | ⟨rfl, -⟩ | ⟨rfl, -⟩ | ⟨rfl, -⟩ | ⟨rfl, -⟩ | ⟨rfl, -⟩ | ⟨rfl, -⟩
  · exact e
  all_goals exact absurd (by decide) h

theorem step_of_readReg {s : State} {ts : List Turn} {a : Word}
    (h : s.nextTurn (.host (.readReg a)) ts) (hb : s.status.busy = false) (hr : regInRange a) :
    step s = .next { s with turns := ts, reply := some (.word (s.regRead a.toNat)) } :=
  step_of_host_idle h hb (decide_eq_true hr)

theorem step_of_writeReg {s : State} {ts : List Turn} {a v : Word} {off : Nat}
    (h : s.nextTurn (.host (.writeReg a v)) ts) (hb : s.status.busy = false)
    (ha : a.toNat = off) (hr : off ≤ 0xFC ∧ off % 4 = 0) :
    step s = .next (State.regWrite { s with turns := ts } off v).noAnswer := by
  subst ha
  exact step_of_host_idle h hb (decide_eq_true hr)

theorem step_of_writeReg_ignored {s : State} {ts : List Turn} {a v : Word}
    (h : s.nextTurn (.host (.writeReg a v)) ts) (hb : s.status.busy = false) (hr : regInRange a)
    (hro : a.toNat ∉ [0x00, 0x04, 0x08, 0x0C, 0x10, 0x1C, 0x20]) :
    step s = .next { s with turns := ts, reply := none } := by
  rw [step_of_writeReg h hb rfl hr, regWrite_ignored _ v hro]
  rfl

/-- Settles O20: no register stands from 0x34 up, and no state stores a reserved bit. -/
theorem unmappedReadsZeroIgnoresWrites : Obligations.UnmappedReadsZeroIgnoresWrites := by
  refine ⟨fun s ts a hlo hhi hal hb => ⟨fun h => ?_, fun v h => ?_⟩, fun s ts v t _ _ _ => ?_⟩
  · rw [step_of_readReg h hb ⟨hhi, hal⟩, regRead_unmapped s hlo]
  · refine step_of_writeReg_ignored h hb ⟨hhi, hal⟩ fun hmem => ?_
    have hmapped : ∀ off ∈ [0x00, 0x04, 0x08, 0x0C, 0x10, 0x1C, 0x20], off < 0x34 := by decide
    exact Nat.not_lt.2 hlo (hmapped _ hmem)
  · obtain ⟨-, -, -, -, hstatus⟩ := statusWord_layout s.status
    obtain ⟨-, -, -, -, hstatus'⟩ := statusWord_layout t.status
    obtain ⟨-, -, hmisc⟩ := resMiscWord_layout s.resMisc
    obtain ⟨-, -, hmisc'⟩ := resMiscWord_layout t.resMisc
    exact ⟨fun k hk => ⟨hstatus' k hk, hstatus k hk⟩, fun k hk => ⟨hmisc' k hk, hmisc k hk⟩⟩

/-- Settles O21: each offset is in range, and its write is ignored or is its register's. -/
theorem registerWrites : Obligations.RegisterWrites := by
  intro s ts a v h hb
  refine ⟨fun ha => ?_, fun ha => ?_, ?_, ?_, ?_, ?_, ?_, ?_⟩
  · have hreadOnly : ∀ off ∈ [0x14, 0x18, 0x24, 0x28, 0x2C, 0x30],
        (off ≤ 0xFC ∧ off % 4 = 0) ∧ off ∉ [0x00, 0x04, 0x08, 0x0C, 0x10, 0x1C, 0x20] := by
      decide
    obtain ⟨hr, hro⟩ := hreadOnly _ ha
    exact step_of_writeReg_ignored h hb hr hro
  · obtain rfl : a = 0x04 := BitVec.eq_of_toNat_eq ha
    exact step_of_write_status h hb
  all_goals exact fun ha => step_of_writeReg h hb ha (by decide)

/-! ### Grid planes and buffers -/

theorem step_of_writeGrid {s : State} {ts : List Turn} {p : Plane} {a d : Word}
    (h : s.nextTurn (.host (.writeGrid p a d)) ts) (hb : s.status.busy = false)
    (hr : s.gridInRange a) :
    step s = .next { s.setPlane p (gridWrite (s.plane p) (a.toNat / 65536) (a.toNat % 65536)
      (d.extractLsb' 0 24)) with turns := ts, reply := none } := by
  rw [step_of_host_idle h hb (decide_eq_true hr), ← hi16_toNat, ← lo16_toNat]
  cases p <;> rfl

theorem step_of_readGrid {s : State} {ts : List Turn} {p : Plane} {a : Word}
    (h : s.nextTurn (.host (.readGrid p a)) ts) (hb : s.status.busy = false)
    (hr : s.gridInRange a) :
    step s = readReply { s with turns := ts }
      ((gridRead (s.plane p) (a.toNat / 65536) (a.toNat % 65536)).map fun v =>
        .word (v.setWidth 32)) := by
  rw [← hi16_toNat, ← lo16_toNat]
  exact step_of_host_idle h hb (decide_eq_true hr)

theorem step_of_readPin {s : State} {ts : List Turn} {a : Word}
    (h : s.nextTurn (.host (.readPin a)) ts) (hb : s.status.busy = false) (hr : s.bufInRange a) :
    step s = readReply { s with turns := ts } ((bufRead s.pin a.toNat).map .byte) :=
  step_of_host_idle h hb (decide_eq_true hr)

theorem step_of_readPout {s : State} {ts : List Turn} {a : Word}
    (h : s.nextTurn (.host (.readPout a)) ts) (hb : s.status.busy = false) (hr : s.bufInRange a) :
    step s = readReply { s with turns := ts } ((bufRead s.pout a.toNat).map .byte) :=
  step_of_host_idle h hb (decide_eq_true hr)

/-- Settles O22: the write is a `gridWrite` of d[23:0], the read a `gridRead` widened to 32 bits. -/
theorem gridTransactions : Obligations.GridTransactions := by
  intro s ts p a hb hx hy
  have hr : s.gridInRange a := (s.gridInRange_iff a).2 ⟨hx, hy⟩
  refine ⟨fun d h => ⟨_, step_of_writeGrid h hb hr, ⟨_, gridRead_gridWrite_same .., ?_⟩, ?_⟩,
    fun h v hv => ⟨v.setWidth 32, ?_, ?_⟩⟩
  · rw [BitVec.extractLsb'_toNat, Nat.shiftRight_zero]
  · exact fun x y hy' hne => gridRead_gridWrite_other _ _ (Nat.mod_lt _ (by decide)) hy' hne
  · rw [step_of_readGrid h hb hr, hv]
    rfl
  · exact BitVec.toNat_setWidth_of_le (by decide)

/-- Settles O23: PIN is written as any memory is, POUT not at all, and both are read. -/
theorem bufferTransactions : Obligations.BufferTransactions := by
  intro s ts a hb hr
  refine ⟨fun v h => ⟨_, step_of_host_idle h hb (decide_eq_true hr), Memory.read_write_same .., ?_⟩,
    fun v h => step_of_host_idle h hb (decide_eq_true hr), fun h v hv => ?_, fun h v hv => ?_⟩
  · exact fun k hk => Memory.read_write_other _ _ hk
  · rw [step_of_readPin h hb hr, hv]
    rfl
  · rw [step_of_readPout h hb hr, hv]
    rfl

/-- Settles O24: a read of each memory answers what the memory holds, or stops where that is
nothing. -/
theorem hostReadOfNoValueFaults : Obligations.HostReadOfNoValueFaults := by
  intro s ts a hb
  refine ⟨fun p h hx hy hnone => ?_, fun h hr hnone => ?_, fun h hr hnone => ?_⟩
  · rw [step_of_readGrid h hb ((s.gridInRange_iff a).2 ⟨hx, hy⟩), hnone]
    rfl
  · rw [step_of_readPin h hb hr, hnone]
    rfl
  · rw [step_of_readPout h hb hr, hnone]
    rfl

/-! ### Reads have no side effect -/

/-- The converse of `transact_next`. -/
theorem transact_of_defined {s : State} {x : Transaction}
    (hb : s.status.busy = true → x = .readReg 0x04) (hr : s.inRange x = true) :
    transact x s = definedTransact x s := by
  rw [transact, if_neg fun hbusy => hbusy.2 (hb hbusy.1), hr]
  exact if_neg nofun

/-- A completed read sets the reply alone, and to a value on which neither the turns nor an older
reply bear (R62). -/
theorem definedTransact_read {s t : State} {x : Transaction} (hx : isRead x)
    (h : definedTransact x s = .next t) :
    ∃ r, t = s.answer r ∧ ∀ ts q,
      definedTransact x { s with turns := ts, reply := q } =
        .next { s with turns := ts, reply := some r } := by
  cases x with
  | readReg a => cases h; exact ⟨_, rfl, fun _ _ => rfl⟩
  | readGrid _ _ | readPin _ | readPout _ =>
    obtain ⟨r, hr, rfl⟩ := readReply_next h
    exact ⟨r, rfl, fun _ _ => congrArg (readReply _) hr⟩
  | writeReg _ _ | writeGrid _ _ _ | writePin _ _ | writePout _ _ => exact hx.elim

theorem transact_read {s t : State} {x : Transaction} (hx : isRead x)
    (h : transact x s = .next t) :
    ∃ r, t = s.answer r ∧ ∀ ts q,
      transact x { s with turns := ts, reply := q } =
        .next { s with turns := ts, reply := some r } := by
  obtain ⟨hb, hr, hd⟩ := transact_next h
  obtain ⟨r, ht, hagain⟩ := definedTransact_read hx hd
  exact ⟨r, ht, fun ts q =>
    (transact_of_defined (s := { s with turns := ts, reply := q }) hb hr).trans (hagain ts q)⟩

/-- Settles O25: the first read changes only what the second does not depend on. -/
theorem readsHaveNoSideEffect : Obligations.ReadsHaveNoSideEffect := by
  intro s ts x t hread h ht
  rw [step_of_host h] at ht
  obtain ⟨r, rfl, hagain⟩ := transact_read hread ht
  have hnext : (State.answer { s with turns := .host x :: ts } r).nextTurn (.host x) ts :=
    ⟨h.1, rfl⟩
  exact ⟨rfl, (step_of_host hnext).trans (hagain ts (some r))⟩

end Sys2Proof.Machine
end

section
/-! O1 to O4 (R75 to R80): the command words. A word is its three fields; what decodes is settled by
the fields; encoding undoes decoding. -/

namespace Sys2Proof

/-! ### The fields of a word, as arithmetic -/

theorem commandFields_rsv_toNat (w : Word) : (commandFields w).rsv.toNat = w.toNat / 64 := by
  have := w.isLt
  simp only [commandFields, BitVec.extractLsb'_toNat, Nat.shiftRight_eq_div_pow]
  omega

theorem commandFields_ch_toNat (w : Word) : (commandFields w).ch.toNat = w.toNat / 16 % 4 := by
  simp only [commandFields, BitVec.extractLsb'_toNat, Nat.shiftRight_eq_div_pow, Nat.reducePow]

theorem commandFields_op_toNat (w : Word) : (commandFields w).op.toNat = w.toNat % 16 := by
  simp only [commandFields, BitVec.extractLsb'_toNat, Nat.shiftRight_zero, Nat.reducePow]

/-- The three fields cover the word (R75). -/
theorem word_commandFields (w : Word) : (commandFields w).word = w := by
  unfold CommandFields.word commandFields
  rw [BitVec.extractLsb'_append_extractLsb'_eq_extractLsb' (by rfl),
    BitVec.extractLsb'_append_extractLsb'_eq_extractLsb' (by rfl)]
  exact BitVec.extractLsb'_eq_self

/-! ### Decoding and encoding are inverse -/

/-- Each command's word decodes to it and has legal fields. -/
theorem wordOfCommand : ∀ i, Laws.WordOfCommand.Statement i
  | .capacity => Laws.WordOfCommand.capacity
  | .coord => Laws.WordOfCommand.coord
  | .framebit => Laws.WordOfCommand.framebit
  | .map => Laws.WordOfCommand.map
  | .toggleR => Laws.WordOfCommand.toggleR
  | .toggleG => Laws.WordOfCommand.toggleG
  | .toggleB => Laws.WordOfCommand.toggleB
  | .encode => Laws.WordOfCommand.encode
  | .readbitR => Laws.WordOfCommand.readbitR
  | .readbitG => Laws.WordOfCommand.readbitG
  | .readbitB => Laws.WordOfCommand.readbitB
  | .decode => Laws.WordOfCommand.decode

/-- A word with a reserved bit set is ILLEGAL, whatever its OP (R78). -/
theorem decodeFields_of_reserved {f : CommandFields} (h : f.rsv ≠ 0) : decodeFields f = none :=
  if_pos h

/-- No field of a legal word is dropped: RSV is 0, and `rows` goes through the 64 pairs of CH and OP
that are left. -/
theorem encodeFields_of_decodeFields {f : CommandFields} {i : Instr}
    (h : decodeFields f = some i) : encodeFields i = f := by
  have hrsv : f.rsv = 0 := by
    by_contra hne
    cases h.symm.trans (decodeFields_of_reserved hne)
  have rows : ∀ (ch : BitVec 2) (op : BitVec 4), ∀ i ∈ decodeFields { rsv := 0, ch, op },
      encodeFields i = { rsv := 0, ch, op } := by decide
  obtain ⟨rsv, ch, op⟩ := f
  subst hrsv
  exact rows ch op i h

theorem decode_eq_some_iff {w : Word} {i : Instr} : decode w = some i ↔ encode i = w := by
  constructor
  · intro h
    rw [encode, encodeFields_of_decodeFields h, word_commandFields]
  · rintro rfl
    exact (wordOfCommand i).1

/-- Settles O3: both directions are `decode_eq_some_iff`. -/
theorem decodeEncodeInverse : Obligations.DecodeEncodeInverse :=
  ⟨fun _ => decode_eq_some_iff.2 rfl, fun _ _ => decode_eq_some_iff.1⟩

/-! ### The table of R80 -/

theorem mem_legalWords_iff {w : Word} {i : Instr} :
    (w, i) ∈ Machine.legalWords ↔ encode i = w := by
  constructor
  · have rows : ∀ r ∈ Machine.legalWords, encode r.2 = r.1 := by decide
    exact rows (w, i)
  · rintro rfl
    cases i <;> decide

/-- Settles O2: a word decodes to a command when it is that command's word, and the table's rows
are the commands' words. -/
theorem decodeExactlyLegalWords : Obligations.DecodeExactlyLegalWords := fun _ _ =>
  decode_eq_some_iff.trans mem_legalWords_iff.symm

/-- Settles O1: the samples, evaluated. -/
theorem sampleWordsDecode : Obligations.SampleWordsDecode := by
  unfold Obligations.SampleWordsDecode
  decide

/-! ### Illegal words -/

theorem decodeFields_ne_none_of_wellFormed {f : CommandFields} (h : f.wellFormed) :
    decodeFields f ≠ none := by
  have rows : ∀ (ch : BitVec 2) (op : BitVec 4),
      CommandFields.wellFormed { rsv := 0, ch, op } →
        decodeFields { rsv := 0, ch, op } ≠ none := by decide
  obtain ⟨rsv, ch, op⟩ := f
  obtain rfl : rsv = 0 := h.1
  exact rows ch op h

/-- The decoder refuses the words whose fields R76 to R78 refuse. -/
theorem decode_eq_none_iff {w : Word} : decode w = none ↔ ¬ (commandFields w).wellFormed := by
  refine ⟨fun h hwf => decodeFields_ne_none_of_wellFormed hwf h, fun h => ?_⟩
  by_contra hne
  obtain ⟨i, hi⟩ := Option.ne_none_iff_exists'.1 hne
  obtain rfl := decode_eq_some_iff.1 hi
  exact h (wordOfCommand i).2

/-- Legal fields, as numbers. -/
theorem wellFormed_commandFields_iff (w : Word) :
    (commandFields w).wellFormed ↔ ¬ Machine.illegalWord w.toNat := by
  have hrsv := commandFields_rsv_toNat w
  have hch := commandFields_ch_toNat w
  have hop := commandFields_op_toNat w
  simp only [CommandFields.wellFormed, CommandFields.rsvLegal, CommandFields.opLegal,
    CommandFields.chLegal, CommandFields.usesChannel, Machine.illegalWord, ne_eq, ← BitVec.toNat_inj,
    BitVec.reduceToNat,
    hrsv, hch, hop]
  split_ifs <;> omega

/-- Settles O4: the causes of R174 are the fields that R76 to R78 refuse. -/
theorem illegalWordsByField : Obligations.IllegalWordsByField := fun w => by
  rw [decode_eq_none_iff, wellFormed_commandFields_iff, not_not]

end Sys2Proof
end

section
/-! O32, O37, O38 (R81, R82, R85, R86): the statements' forms of the laws of the fields and of the
planner. -/

namespace Sys2Proof.Machine

/-- The index of a coordinate in R86's form, as the statement writes it. -/
theorem coordIndex_eq (d : Dims) (p : Coord) :
    coordIndex d p = p.c.code.toNat * d.w * d.h + p.x * d.h + p.y := by
  rw [coordIndex, Nat.mul_assoc, Nat.add_assoc]

/-- Settles O37: `coord` and `coordIndex` are inverse on the grid and the sequence. -/
theorem coordInvertsIndex : Obligations.CoordInvertsIndex := by
  intro d _ _
  constructor
  · intro c x y hx hy
    rw [← coordIndex_eq d { c, x, y }]
    exact ⟨(coordIndex_lt hx hy).2, coord_coordIndex hx hy⟩
  · intro i hi
    obtain ⟨hx, hy, -⟩ := coord_bounds hi
    exact ⟨hx, hy, (coordIndex_coord hi).symm.trans (coordIndex_eq d (coord d i))⟩

/-- Settles O38: the bits of the length, then those of the payload. -/
theorem frameBitsMsbFirst : Obligations.FrameBitsMsbFirst := fun len pin _ =>
  ⟨frameBit_prefix len pin, frameBit_payload len pin⟩

/-- No result is truncated (R82). -/
theorem State.setResXY_resXY_toNat (s : State) {x y : Nat} (hx : x < 65536) (hy : y < 65536) :
    (s.setResXY x y).resXY.toNat = 65536 * x + y := by
  rw [State.setResXY_resXY, pair16_toNat, BitVec.toNat_ofNat, BitVec.toNat_ofNat,
    Nat.mod_eq_of_lt hx, Nat.mod_eq_of_lt hy]

/-- Settles O32: each operand is one half of its register. -/
theorem operandFields : Obligations.OperandFields :=
  ⟨fun s => ⟨hi16_toNat s.orgDim, lo16_toNat s.orgDim, hi16_toNat s.modDim, lo16_toNat s.modDim,
      hi16_toNat s.pxy, lo16_toNat s.pxy⟩,
    fun s _ _ => State.setResXY_resXY_toNat s⟩

end Sys2Proof.Machine
end

section
/-! O33, O34, O35, O41 (R100 to R104): the capacity as a floor, and CAPACITY, an equation per
case. -/

namespace Sys2Proof.Machine

/-! ### The capacity function -/

/-- `cap + 4` is the floor of 3WH / 8, in exact integers (R100). -/
theorem capacity_floor (d : Dims) :
    8 * (capacity d + 4) ≤ 3 * d.w * d.h ∧ 3 * d.w * d.h < 8 * (capacity d + 5) := by
  have area : (3 * d.w * d.h : Int) = (3 * d.w * d.h : Nat) := by push_cast; rfl
  rw [area, capacity]
  omega

theorem capacity_neg_iff (d : Dims) : capacity d < 0 ↔ 3 * d.w * d.h < 32 := by
  unfold capacity
  omega

/-- The capacities of the smallest and the largest grid that a dimensions register holds (R100). -/
theorem capacity_one_one : capacity { w := 1, h := 1 } = -4 := by decide
theorem capacity_max_max : capacity { w := 65535, h := 65535 } = 1610563580 := by decide

/-- Settles O33: the range lies between the two ends because `cap` is monotone. -/
theorem capacityFormula : Obligations.CapacityFormula := by
  rintro ⟨w, h⟩ hw hh
  obtain ⟨hle, hlt⟩ := capacity_floor { w, h }
  refine ⟨hle, hlt, fun hw' hh' => ⟨?_, ?_⟩, (capacity_neg_iff _).2, ?_, ?_⟩
  · exact capacity_one_one.symm.trans_le (capacity_mono hw hh)
  · exact (capacity_mono hw' hh').trans_eq capacity_max_max
  · rintro rfl rfl
    exact capacity_one_one
  · rintro rfl rfl
    exact capacity_max_max

/-- A negative capacity rejects every length, the empty payload's too (R101). -/
theorem not_fits_of_capacity_neg {d : Dims} (h : capacity d < 0) (len : Nat) : ¬ fits len d :=
  fun hf => absurd (h.trans_le (Int.natCast_nonneg len)) (not_lt_of_ge hf)

/-- Settles O34: the frame's form of the check is `fits_iff`. -/
theorem fitsIsFrameFits : Obligations.FitsIsFrameFits := fun len d =>
  ⟨Iff.rfl, fun h => not_fits_of_capacity_neg h len, fits_iff len d⟩

/-- The buffers of a legal build hold the capacity of its largest grid (R9). -/
theorem capacity_gridMax_le {s : State} (hp : s.params.legal) :
    capacity { w := s.gridMaxW, h := s.gridMaxH } ≤ s.pbufBytes := by
  have hb : 3 * s.gridMaxW * s.gridMaxH / 8 - 4 ≤ s.pbufBytes := hp.2.2.1
  change ((3 * s.gridMaxW * s.gridMaxH / 8 : Nat) : Int) - 4 ≤ s.pbufBytes
  omega

/-- Settles O35: a valid grid is no larger than the build's largest one. -/
theorem capacityMonotone : Obligations.CapacityMonotone :=
  ⟨fun _ _ => capacity_mono, fun _ _ hp hv =>
    ⟨capacity_mono hv.1.2 hv.2.2, capacity_gridMax_le hp, fun _ => len_le_pbufBytes hp hv⟩⟩

/-! ### The ends of a perform step, in R171's words -/

theorem State.finish_zero (s : State) : s.finish 0 = s.endedOk := by
  simp [State.finish, Status.finish, State.endedOk]

theorem State.finish_of_ne_zero (s : State) {e : BitVec 4} (he : e ≠ 0) :
    s.finish e = s.endedErr e := by
  rw [State.finish, Status.finish, bne_iff_ne.2 he, Bool.or_true, State.endedErr]

/-! ### CAPACITY -/

theorem execCapacity_of_invalid {s : State} (hv : ¬ s.validDims s.orgDims) :
    execCapacity s = .next (s.endedErr 2) := by
  rw [execCapacity, if_pos hv, raiseError_eq]
  exact congrArg _ (s.finish_of_ne_zero (by decide))

theorem execCapacity_of_not_fits {s : State} (hv : s.validDims s.orgDims)
    (hf : ¬ fits s.lenNat s.orgDims) :
    execCapacity s = .next ((s.setCap (capacity s.orgDims)).endedErr 3) := by
  rw [execCapacity, if_neg (not_not.2 hv), if_pos hf, raiseError_eq]
  exact congrArg _ (State.finish_of_ne_zero _ (by decide))

theorem execCapacity_of_fits {s : State} (hv : s.validDims s.orgDims)
    (hf : fits s.lenNat s.orgDims) :
    execCapacity s = .next (s.setCap (capacity s.orgDims)).endedOk := by
  rw [execCapacity, if_neg (not_not.2 hv), if_neg (not_not.2 hf), succeed_eq, State.finish_zero]

/-- Bit 31 of CAP is the capacity's sign (R32). -/
theorem capWord_getLsbD_31 {s : State} {d : Dims} (h : s.validDims d) :
    (BitVec.ofInt 32 (capacity d)).getLsbD 31 = true ↔ 3 * d.w * d.h < 32 := by
  have sign := BitVec.msb_eq_toInt (x := BitVec.ofInt 32 (capacity d))
  rw [capWord_toInt h, BitVec.msb_eq_getLsbD_last] at sign
  rw [← capacity_neg_iff, sign, decide_eq_true_iff]

/-- Settles O41: one equation per case of the two checks; CAP keeps the value and the sign. -/
theorem capacityCommand : Obligations.CapacityCommand :=
  ⟨by decide, fun _ => ⟨execCapacity_of_invalid,
    fun hv hf => ⟨_, execCapacity_of_fits hv hf, capWord_toInt hv⟩,
    fun hv hf => ⟨_, execCapacity_of_not_fits hv (not_le_of_gt hf), capWord_toInt hv,
      capWord_getLsbD_31 hv⟩⟩⟩

end Sys2Proof.Machine
end

section
/-! O36, O42, O43, O44 (R110 to R119): the Coordinate Sequence as the loop nest, and COORD, FRAMEBIT
and MAP, an equation per case. -/

namespace Sys2Proof.Machine

/-! ### The loop nest -/

/-- A count up to a product is two nested loops. -/
theorem map_range_mul {α : Type} (f : Nat → α) (m n : Nat) :
    (List.range (m * n)).map f =
      (List.range m).flatMap fun i => (List.range n).map fun j => f (i * n + j) := by
  induction m with
  | zero => rw [Nat.zero_mul]; rfl
  | succ m ih =>
    rw [Nat.succ_mul, List.range_add, List.map_append, ih, List.map_map, List.range_succ,
      List.flatMap_append, List.flatMap_singleton]
    rfl

/-- Settles O36: the count is split by channel and column, and `coord` inverts each index. -/
theorem coordEnumeratesLoopNest : Obligations.CoordEnumeratesLoopNest := by
  intro d _ _
  calc (List.range (3 * d.w * d.h)).map (coord d)
    _ = (List.range 3).flatMap fun c => (List.range (d.w * d.h)).map fun k =>
          coord d (c * (d.w * d.h) + k) := by
      rw [Nat.mul_assoc, map_range_mul]
    _ = (List.range 3).flatMap fun c => (List.range d.w).flatMap fun x =>
          (List.range d.h).map fun y => coord d (c * (d.w * d.h) + (x * d.h + y)) := by
      simp only [map_range_mul]
    _ = [Channel.r, Channel.g, Channel.b].flatMap fun c => (List.range d.w).flatMap fun x =>
          (List.range d.h).map fun y => coord d (coordIndex d { c, x, y }) := rfl
    _ = _ := by
      refine List.flatMap_congr fun c _ => List.flatMap_congr fun x hx =>
        List.map_congr_left fun y hy => ?_
      exact coord_coordIndex (List.mem_range.1 hx) (List.mem_range.1 hy)

/-! ### The ends of a perform step -/

theorem succeed_eq_endedOk (s : State) : succeed s = .next s.endedOk :=
  congrArg _ s.finish_zero

theorem raiseError_eq_endedErr (e : Err) (s : State) : raiseError e s = .next (s.endedErr e.code) :=
  congrArg _ (s.finish_of_ne_zero (by cases e <;> decide))

/-! ### COORD -/

/-- RES_XY holds a coordinate of the sequence untruncated (R82). -/
theorem State.setResCoord_resXY_halves (s : State) {u : State} {d : Dims} (hv : u.validDims d)
    {i : Nat} (hi : i < 3 * d.w * d.h) :
    (s.setResCoord (coord d i)).resXY.toNat / 65536 = (coord d i).x ∧
      (s.setResCoord (coord d i)).resXY.toNat % 65536 = (coord d i).y := by
  obtain ⟨-, -, hw, hh⟩ := State.validDims_lt hv
  obtain ⟨hx, hy, -⟩ := coord_bounds hi
  have hy' := hy.trans hh
  have hxy : (s.setResCoord (coord d i)).resXY.toNat = 65536 * (coord d i).x + (coord d i).y :=
    s.setResXY_resXY_toNat (hx.trans hw) hy'
  omega

theorem execCoord_of_invalid {s : State}
    (h : ¬ s.validDims s.orgDims ∨ 3 * s.orgDims.w * s.orgDims.h ≤ s.idxNat) :
    execCoord s = .next (s.endedErr 2) := by
  rw [execCoord, ← ite_or, if_pos h]
  exact raiseError_eq_endedErr .invalidInput s

theorem execCoord_of_valid {s : State} (hv : s.validDims s.orgDims)
    (hi : s.idxNat < 3 * s.orgDims.w * s.orgDims.h) :
    execCoord s = .next (s.setResCoord (coord s.orgDims s.idxNat)).endedOk := by
  rw [execCoord, if_neg (not_not.2 hv), if_neg (Nat.not_le.2 hi), succeed_eq_endedOk]

/-- Settles O42: RES_XY and CH hold the coordinate because it lies in the grid. -/
theorem coordCommand : Obligations.CoordCommand := by
  refine ⟨by decide, fun s => ⟨execCoord_of_invalid, fun hv hi => ?_⟩⟩
  obtain ⟨hx, hy⟩ := s.setResCoord_resXY_halves hv hi
  obtain ⟨-, -, hc⟩ := coord_bounds hi
  exact ⟨_, execCoord_of_valid hv hi, rfl, hx, hy, hc, rfl⟩

/-! ### FRAMEBIT -/

theorem execFramebit_of_invalid {s : State}
    (h : frameBits s.lenNat ≤ s.idxNat ∨ (32 ≤ s.idxNat ∧ s.pbufBytes ≤ (s.idxNat - 32) / 8)) :
    execFramebit s = .next (s.endedErr 2) := by
  rw [execFramebit, ← ite_or, if_pos h]
  exact raiseError_eq_endedErr .invalidInput s

section
variable {s : State} (hk : s.idxNat < frameBits s.lenNat)
  (hp : ¬ (32 ≤ s.idxNat ∧ s.pbufBytes ≤ (s.idxNat - 32) / 8))
include hk hp

theorem execFramebit_of_frameBit {b : Bool} (hb : frameBit s.len s.pin s.idxNat = some b) :
    execFramebit s = .next (s.setResBit b).endedOk := by
  rw [execFramebit, if_neg (Nat.not_le.2 hk), if_neg hp, hb]
  exact succeed_eq_endedOk _

theorem execFramebit_of_no_value (hb : frameBit s.len s.pin s.idxNat = none) :
    execFramebit s = .fault .uninitRead := by
  rw [execFramebit, if_neg (Nat.not_le.2 hk), if_neg hp, hb]
  rfl

end

/-- Settles O43: the bit is a bit of the length below 32, and of its payload byte from 32 on. -/
theorem framebitCommand : Obligations.FramebitCommand := by
  refine ⟨by decide, fun s => ⟨execFramebit_of_invalid, fun hlt => ?_, fun hge hk hin => ?_⟩⟩
  · exact execFramebit_of_frameBit (Nat.lt_add_right _ hlt)
      (fun ⟨hge, _⟩ => Nat.not_le.2 hlt hge) (frameBit_prefix s.len s.pin hlt)
  · have hp : ¬ (32 ≤ s.idxNat ∧ s.pbufBytes ≤ (s.idxNat - 32) / 8) :=
      fun ⟨_, hout⟩ => Nat.not_le.2 hin hout
    have hbit := frameBit_payload s.len s.pin hge
    refine ⟨fun f hf => ?_, fun hf => ?_⟩ <;> rw [hf] at hbit
    · exact execFramebit_of_frameBit hk hp hbit
    · exact execFramebit_of_no_value hk hp hbit

/-! ### MAP -/

theorem execMap_of_invalid {s : State} (hv : ¬ s.validDims s.orgDims) :
    execMap s = .next (s.endedErr 2) := by
  rw [execMap, if_pos hv]
  exact raiseError_eq_endedErr .invalidInput s

theorem execMap_of_not_fits {s : State} (hv : s.validDims s.orgDims)
    (hf : ¬ fits s.lenNat s.orgDims) :
    execMap s = .next ((s.setCap (capacity s.orgDims)).endedErr 3) := by
  rw [execMap, if_neg (not_not.2 hv), if_pos hf]
  exact raiseError_eq_endedErr .capacityExceeded _

section
variable {s : State} (hv : s.validDims s.orgDims) (hf : fits s.lenNat s.orgDims)
include hv hf

theorem execMap_of_past_frame (hk : frameBits s.lenNat ≤ s.idxNat) :
    execMap s = .next ((s.setCap (capacity s.orgDims)).endedErr 2) := by
  rw [execMap, if_neg (not_not.2 hv), if_neg (not_not.2 hf), if_pos hk]
  exact raiseError_eq_endedErr .invalidInput _

theorem execMap_of_frameBit (hk : s.idxNat < frameBits s.lenNat) {b : Bool}
    (hb : frameBit s.len s.pin s.idxNat = some b) :
    execMap s = .next (((s.setCap (capacity s.orgDims)).setResCoord
      (coord s.orgDims s.idxNat)).setResBit b).endedOk := by
  rw [execMap, if_neg (not_not.2 hv), if_neg (not_not.2 hf), if_neg (Nat.not_le.2 hk), mapBit, hb]
  exact succeed_eq_endedOk _

theorem execMap_of_no_value (hk : s.idxNat < frameBits s.lenNat)
    (hb : frameBit s.len s.pin s.idxNat = none) : execMap s = .fault .uninitRead := by
  rw [execMap, if_neg (not_not.2 hv), if_neg (not_not.2 hf), if_neg (Nat.not_le.2 hk), mapBit, hb]
  rfl

end

/-- The bits of the length always have values, so a frame bit without one is a payload bit. -/
theorem payload_of_frameBit_eq_none {len : Word} {pin : Memory 8} {k : Nat}
    (h : frameBit len pin k = none) : 32 ≤ k := by
  by_contra hk
  cases h.symm.trans (frameBit_prefix len pin (Nat.lt_of_not_le hk))

/-- Settles O44: an index in a frame that fits lies in the Coordinate Sequence, so its coordinate
lies in the grid. -/
theorem mapCommand : Obligations.MapCommand := by
  refine ⟨by decide, fun s => ⟨execMap_of_invalid, execMap_of_not_fits, fun hv hf =>
    ⟨execMap_of_past_frame hv hf, fun hk => ⟨fun b hb => ?_, fun hb => ?_⟩⟩⟩⟩
  · have hi : s.idxNat < 3 * s.orgDims.w * s.orgDims.h := hk.trans_le ((fits_iff _ _).1 hf)
    obtain ⟨hx, hy⟩ := (s.setCap (capacity s.orgDims)).setResCoord_resXY_halves hv hi
    exact ⟨_, execMap_of_frameBit hv hf hk hb, rfl, hx, hy, rfl, rfl⟩
  · exact ⟨payload_of_frameBit_eq_none hb, execMap_of_no_value hv hf hk hb⟩

end Sys2Proof.Machine
end

section
/-! O39, O45 (R130, R131): the toggle, bit by bit, and TOGGLE.c, an equation per case. -/

namespace Sys2Proof.Machine

/-- A toggle flips bit 0 of the channel's byte lane and no other bit (R130). -/
theorem toggle_getLsbD (p : Pixel) (c : Channel) (k : Nat) :
    (toggle p c).getLsbD k =
      if k = 16 - 8 * c.code.toNat then !p.getLsbD k else p.getLsbD k := by
  rw [toggle, BitVec.getLsbD_xor, encMask_getLsbD]
  split
  · next h => rw [decide_eq_true h, Bool.xor_true]
  · next h => rw [decide_eq_false h, Bool.xor_false]

/-- Settles O39: the mask of the channel has the one bit that flips. -/
theorem toggleFlipsOneBit : Obligations.ToggleFlipsOneBit := fun p c =>
  ⟨toggle_getLsbD p c, toggle_toggle p c, toggle_comm p c⟩

theorem toggleCommand_of_invalid {c : Channel} {s : State}
    (h : ¬ s.validDims s.modDims ∨ s.modDims.w ≤ s.posX ∨ s.modDims.h ≤ s.posY) :
    toggleCommand c s = .next (s.endedErr 2) := by
  rw [toggleCommand, ← ite_or, if_pos h]
  exact raiseError_eq_endedErr .invalidInput s

section
variable {c : Channel} {s : State} (hv : s.validDims s.modDims) (hx : s.posX < s.modDims.w)
  (hy : s.posY < s.modDims.h)
include hv hx hy

theorem toggleCommand_of_toggleCell {g : Memory 24}
    (hg : toggleCell s.gridB c s.posX s.posY = some g) :
    toggleCommand c s = .next (State.endedOk { s with gridB := g }) := by
  rw [toggleCommand, if_neg (not_not.2 hv),
    if_neg (not_or.2 ⟨Nat.not_le.2 hx, Nat.not_le.2 hy⟩), hg]
  exact succeed_eq_endedOk _

theorem toggleCommand_of_no_value (hp : gridRead s.gridB s.posX s.posY = none) :
    toggleCommand c s = .fault .uninitRead := by
  rw [toggleCommand, if_neg (not_not.2 hv),
    if_neg (not_or.2 ⟨Nat.not_le.2 hx, Nat.not_le.2 hy⟩), toggleCell_eq_none.2 hp]
  rfl

end

/-- Settles O45: the three commands are one rule, which writes one toggled cell. (`toggleCommand` is
the model's name for that rule.) -/
theorem toggleCommand_spec : Obligations.ToggleCommand := by
  refine ⟨by decide, fun c s => ?_⟩
  rw [exec_toggleOf]
  refine ⟨toggleCommand_of_invalid, fun hv hx hy =>
    ⟨fun p hp => ?_, toggleCommand_of_no_value hv hx hy⟩⟩
  have hg : toggleCell s.gridB c s.posX s.posY =
      some (gridWrite s.gridB s.posX s.posY (toggle p c)) := toggleCell_eq_some.2 ⟨p, hp, rfl⟩
  exact ⟨_, toggleCommand_of_toggleCell hv hx hy hg, gridRead_gridWrite_same _ _ _ _,
    fun _ => toggleCell_read_other hg⟩

end Sys2Proof.Machine
end

section
/-! O46, O47, O48, O49, O53 (R132 to R139, R154): ENCODE's errors, the plane it leaves, the order of
its toggles, and when ENCODE and DECODE meet UNINIT_READ. -/

namespace Sys2Proof.Machine

/-! ### ENCODE, an equation per case, in R171's words -/

/-- Settles O46: both checks stand before the writes of plane B and MOD_DIM. -/
theorem encodeErrors : Obligations.EncodeErrors := fun s =>
  ⟨fun hv => (execEncode_of_invalid hv).trans (congrArg _ (s.finish_of_ne_zero (by decide))),
    fun hv hf => (execEncode_of_not_fits hv hf).trans
      (congrArg _ (State.finish_of_ne_zero _ (by decide)))⟩

section
variable {s : State} (hv : s.validDims s.orgDims) (hf : fits s.lenNat s.orgDims)
include hv hf

theorem execEncode_endedOk {g : Memory 24}
    (hg : encodedGrid s.orgDims s.len s.pin s.gridA s.gridB = some g) :
    execEncode s = .next (State.endedOk
      { s with
        cap := BitVec.ofInt 32 (capacity s.orgDims), modDim := s.orgDim, gridB := g }) :=
  (execEncode_of_encodedGrid hv hf hg).trans (congrArg _ (State.finish_zero _))

/-- Once both checks pass, ENCODE completes only by leaving the encoded plane. -/
theorem encodedGrid_of_execEncode {t : State} (h : execEncode s = .next t) :
    encodedGrid s.orgDims s.len s.pin s.gridA s.gridB = some t.gridB := by
  rcases execEncode_next h with ⟨hv', -⟩ | ⟨-, hf', -⟩ | ⟨-, -, g, hg, rfl⟩
  · exact absurd hv hv'
  · exact absurd hf hf'
  · exact hg

theorem execEncode_fault_iff :
    execEncode s = .fault .uninitRead ↔
      encodedGrid s.orgDims s.len s.pin s.gridA s.gridB = none := by
  cases hg : encodedGrid s.orgDims s.len s.pin s.gridA s.gridB with
  | some g => simp [execEncode_of_encodedGrid hv hf hg]
  | none => simp [execEncode, hv, hf, hg, uninitRead]

end

/-! ### The plane ENCODE leaves -/

/-- The coordinates hit by the whole frame, as R135 writes them. -/
theorem hit_frame_iff {d : Dims} {len : Word} {pin : Memory 8} {n : Nat} {c : Channel}
    {x y : Nat} :
    hit d len pin (List.range (frameBits n)) c x y ↔
      ∃ k, k < 32 + 8 * n ∧ coord d k = { c := c, x := x, y := y } ∧
        frameBit len pin k = some true := by
  simp only [hit, List.mem_range, frameBits]

/-- Pixels whose difference is 0 in a lane are equal in that lane. -/
theorem lane_eq_of_xor_lane_eq_zero {p q : Pixel} {c : Channel}
    (h : (p ^^^ q) &&& decMask c = 0) : p &&& decMask c = q &&& decMask c := by
  by_contra hne
  exact (readBit_iff p q c).1 (bne_iff_ne.2 hne) h

/-- Settles O47: the copy gives each cell A's value and the toggles change the hit lanes. -/
theorem encodeEmbedsFrame : Obligations.EncodeEmbedsFrame := by
  intro s hv hf hA hpin
  obtain ⟨g, hg⟩ := Option.isSome_iff_exists.1
    ((encodedGrid_isSome (b := s.gridB) hf).2 ⟨hA, hpin⟩)
  obtain ⟨hcells, houtside⟩ := encodedGrid_read (State.validDims_lt hv).2.2.2 hf hg
  refine ⟨g, execEncode_endedOk hv hf hg, fun x y hx hy => ?_, houtside⟩
  obtain ⟨p, q, hp, hq, hlane⟩ := hcells x y hx hy
  refine ⟨p, q, hp, hq, fun c => ?_⟩
  obtain ⟨hhit, hmiss⟩ := hlane c
  rw [← hit_frame_iff]
  exact ⟨hhit, fun h => lane_eq_of_xor_lane_eq_zero (hmiss h)⟩

/-! ### Sparsity -/

/-- A coordinate as the cell and the channel in it. -/
def Coord.lane (p : Coord) : (Nat × Nat) × Channel := ((p.x, p.y), p.c)

theorem Coord.lane_injective : Function.Injective Coord.lane := by
  rintro ⟨c, x, y⟩ ⟨c', x', y'⟩ h
  cases h
  rfl

/-- The channels of the cells of a grid, cell by cell. -/
def lanesOf (d : Dims) : List ((Nat × Nat) × Channel) :=
  (cellsOf d).flatMap fun xy => [Channel.r, Channel.g, Channel.b].map fun c => (xy, c)

theorem lanesOf_nodup (d : Dims) : (lanesOf d).Nodup := by
  have hcells : (cellsOf d).Nodup := List.nodup_range.product List.nodup_range
  exact hcells.product (by decide)

theorem mem_lanesOf {d : Dims} {q : (Nat × Nat) × Channel} :
    q ∈ lanesOf d ↔ q.1.1 < d.w ∧ q.1.2 < d.h := by
  have hc : q.2 ∈ [Channel.r, Channel.g, Channel.b] := by cases q.2 <;> decide
  rw [← mem_cellsOf]
  exact List.mem_product.trans (and_iff_left hc)

/-- The Coordinate Sequence meets each channel of each cell exactly once (R111). -/
theorem lanesOf_perm (d : Dims) :
    (lanesOf d).Perm ((List.range (3 * d.w * d.h)).map fun i => (coord d i).lane) := by
  have hseq : ((List.range (3 * d.w * d.h)).map fun i => (coord d i).lane).Nodup :=
    List.nodup_range.map_on fun i hi j hj h =>
      coord_injOn (List.mem_range.1 hi) (List.mem_range.1 hj) (Coord.lane_injective h)
  refine (List.perm_ext_iff_of_nodup (lanesOf_nodup d) hseq).2 fun q => ?_
  rw [mem_lanesOf, List.mem_map]
  constructor
  · rintro ⟨hx, hy⟩
    have hcoord := coord_coordIndex (d := d) (p := { c := q.2, x := q.1.1, y := q.1.2 }) hx hy
    exact ⟨_, List.mem_range.2 (coordIndex_lt hx hy).2, congrArg Coord.lane hcoord⟩
  · rintro ⟨i, hi, rfl⟩
    obtain ⟨hx, hy, -⟩ := coord_bounds (List.mem_range.1 hi)
    exact ⟨hx, hy⟩

/-- Counting below `n` inside a longer range. -/
theorem countP_range_lt_and {n m : Nat} (h : n ≤ m) (f : Nat → Bool) :
    (List.range m).countP (fun i => decide (i < n) && f i) = (List.range n).countP f := by
  obtain ⟨k, rfl⟩ := Nat.exists_eq_add_of_le h
  have hlow : (List.range n).countP (fun i => decide (i < n) && f i) = (List.range n).countP f :=
    List.countP_congr fun i hi => by simp [List.mem_range.1 hi]
  rw [List.range_add, List.countP_append, hlow, List.countP_map, Nat.add_eq_left]
  exact List.countP_eq_zero.2 fun i _ => by simp

/-- The lanes that differ between A and the encoded plane are as many as the frame's 1 bits: the
Coordinate Sequence counts them index by index, and index `i` differs exactly by frame bit `i`. -/
theorem countP_encodedGrid {d : Dims} {len : Word} {pin : Memory 8} {a b g : Memory 24}
    (hd : d.h < 65536) (hf : fits len.toNat d) (h : encodedGrid d len pin a b = some g) :
    (lanesOf d).countP (fun q => readCellBit a g q.2 q.1.1 q.1.2 == some true) =
      (List.range (frameBits len.toNat)).countP (fun k => frameBit len pin k == some true) := by
  have hbit : ∀ i ∈ List.range (3 * d.w * d.h), (recBit d a g i == some true) =
      (decide (i < frameBits len.toNat) && (frameBit len pin i == some true)) := by
    intro i hi
    rw [recBit_encodedGrid hd hf h (List.mem_range.1 hi)]
    simp [Bool.beq_eq_decide_eq]
  calc (lanesOf d).countP (fun q => readCellBit a g q.2 q.1.1 q.1.2 == some true)
    _ = (List.range (3 * d.w * d.h)).countP (fun i => recBit d a g i == some true) := by
      rw [(lanesOf_perm d).countP_eq, List.countP_map]
      rfl
    _ = (List.range (3 * d.w * d.h)).countP
          (fun i => decide (i < frameBits len.toNat) && (frameBit len pin i == some true)) :=
      List.countP_congr fun i hi => by rw [hbit i hi]
    _ = _ := countP_range_lt_and ((fits_iff _ _).1 hf) _

/-- Settles O48: the count of differing lanes, and a count is at most the length counted. -/
theorem encodeSparsity : Obligations.EncodeSparsity := by
  intro s t hv hf h
  have hA : t.gridA = s.gridA := (exec_next h).1.gridA
  have hg := encodedGrid_of_execEncode hv hf h
  rw [hA]
  exact ⟨countP_encodedGrid (State.validDims_lt hv).2.2.2 hf hg,
    List.countP_le_length.trans_eq List.length_range⟩

/-! ### Order -/

theorem embedBits_cons_cons (d : Dims) (len : Word) (pin : Memory 8) (b : Memory 24) (j k : Nat)
    (ks : List Nat) :
    embedBits d len pin (j :: k :: ks) b =
      ((embedBit d len pin b j).bind fun m => embedBit d len pin m k).bind
        (embedBits d len pin ks) := by
  rw [embedBits_cons, Option.bind_assoc]
  exact congrArg _ (funext fun m => embedBits_cons d len pin m k ks)

/-- From a canonical plane the order of the loop's indices does not matter: neighbours commute. -/
theorem embedBits_perm {d : Dims} {len : Word} {pin : Memory 8} {ks js : List Nat}
    (h : ks.Perm js) {b : Memory 24} (hb : Memory.wf b) :
    embedBits d len pin ks b = embedBits d len pin js b := by
  induction h generalizing b with
  | nil => rfl
  | cons k _ ih =>
    rw [embedBits_cons, embedBits_cons]
    cases hk : embedBit d len pin b k with
    | none => rfl
    | some m => exact ih (embedBit_wf hk hb)
  | swap j k ks => rw [embedBits_cons_cons, embedBits_cons_cons, embedBit_comm hb]
  | trans _ _ ih₁ ih₂ => exact (ih₁ hb).trans (ih₂ hb)

/-- Settles O49: the frame's indices in any order. -/
theorem encodeToggleOrder : Obligations.EncodeToggleOrder := fun _ _ _ _ _ hb h =>
  embedBits_perm h hb

/-! ### UNINIT_READ -/

theorem execDecode_fault_iff {s : State} (hv : s.validDims s.orgDims)
    (hm : s.modDims = s.orgDims) (hn : 4 ≤ recoveredBytes s.orgDims) :
    execDecode s = .fault .uninitRead ↔
      recBytes s.orgDims s.gridA s.gridB (recoveredBytes s.orgDims) = none := by
  cases hds : recBytes s.orgDims s.gridA s.gridB (recoveredBytes s.orgDims) with
  | some ds =>
    rcases Nat.lt_or_ge (recoveredBytes s.orgDims - 4) (bigEndian (ds.take 4)).toNat with hl | hl
    · simp [execDecode_of_truncated hv hm hn hds hl]
    · simp [execDecode_of_recovered hv hm hn hds hl]
  | none => simp [execDecode, hv, hm, hn, hds, uninitRead]

/-- Settles O53: past the checks, each command stops exactly where one of its reads finds no
value. -/
theorem encodeDecodeUninitRead : Obligations.EncodeDecodeUninitRead := by
  refine fun s hv => ⟨fun hf => ?_, fun hm h32 => ?_⟩
  · refine (execEncode_fault_iff hv hf).trans (Option.not_isSome_iff_eq_none.symm.trans ?_)
    exact not_congr (encodedGrid_isSome hf)
  · have hn : 4 ≤ recoveredBytes s.orgDims := (Nat.le_div_iff_mul_le (by decide)).2 h32
    refine (execDecode_fault_iff hv hm hn).trans (Option.not_isSome_iff_eq_none.symm.trans ?_)
    exact not_congr (recBytes_isSome_iff hn)

end Sys2Proof.Machine
end

section
/-! O40, O50, O51, O52, O54 (R150 to R161): the lane comparison, READBIT.c and DECODE, an equation per
case. DECODE's successful ends all come from one fact: what it does on two planes that hold a frame
between them. -/

namespace Sys2Proof.Machine

/-! ### The lane comparison -/

/-- The byte lane of a channel, bit by bit (R45, R150). -/
theorem readBit_iff_lane (a b : Pixel) (c : Channel) :
    readBit a b c = true ↔
      ∃ k, 16 - 8 * c.code.toNat ≤ k ∧ k < 24 - 8 * c.code.toNat ∧ a.getLsbD k ≠ b.getLsbD k := by
  have hbit : ∀ k, ((a ^^^ b) &&& decMask c).getLsbD k = true ↔
      16 - 8 * c.code.toNat ≤ k ∧ k < 24 - 8 * c.code.toNat ∧ a.getLsbD k ≠ b.getLsbD k := by
    intro k
    rw [BitVec.getLsbD_and, BitVec.getLsbD_xor, decMask_getLsbD, Bool.and_eq_true,
      decide_eq_true_iff, bne_iff_ne, and_comm, and_assoc]
  simp only [readBit_iff, ← hbit]
  constructor
  · intro hne
    by_contra hzero
    push Not at hzero
    exact hne (BitVec.eq_of_getLsbD_eq fun k _ => by simpa using hzero k)
  · rintro ⟨k, hk⟩ hzero
    simp [hzero] at hk

/-- Settles O40: the mask form of R150, and the lane the mask selects. -/
theorem readBitComparesLanes : Obligations.ReadBitComparesLanes := fun a b c =>
  ⟨readBit_iff a b c, readBit_iff_lane a b c⟩

theorem readBit_eq_bne (a b : Pixel) (c : Channel) :
    readBit a b c = ((a ^^^ b) &&& decMask c != 0) := by
  rw [Bool.eq_iff_iff, readBit_iff, bne_iff_ne]

/-! ### READBIT -/

theorem readCellBit_eq_none {a b : Memory 24} {c : Channel} {x y : Nat} :
    readCellBit a b c x y = none ↔ gridRead a x y = none ∨ gridRead b x y = none := by
  unfold readCellBit
  cases gridRead a x y <;> cases gridRead b x y <;> simp

theorem readbitCommand_of_invalid {c : Channel} {s : State}
    (h : ¬ s.validDims s.orgDims ∨ s.modDims ≠ s.orgDims ∨ s.orgDims.w ≤ s.posX ∨
      s.orgDims.h ≤ s.posY) :
    readbitCommand c s = .next (s.endedErr 2) := by
  rw [readbitCommand, ← ite_or, ← ite_or, if_pos (or_assoc.2 h)]
  exact raiseError_eq_endedErr .invalidInput s

section
variable {c : Channel} {s : State} (hv : s.validDims s.orgDims) (hm : s.modDims = s.orgDims)
  (hx : s.posX < s.orgDims.w) (hy : s.posY < s.orgDims.h)
include hv hm hx hy

theorem readbitCommand_of_readCellBit {b : Bool}
    (hb : readCellBit s.gridA s.gridB c s.posX s.posY = some b) :
    readbitCommand c s = .next (s.setResBit b).endedOk := by
  rw [readbitCommand, if_neg (not_not.2 hv), if_neg (not_not.2 hm),
    if_neg (not_or.2 ⟨Nat.not_le.2 hx, Nat.not_le.2 hy⟩), hb]
  exact succeed_eq_endedOk _

theorem readbitCommand_of_no_value
    (hb : readCellBit s.gridA s.gridB c s.posX s.posY = none) :
    readbitCommand c s = .fault .uninitRead := by
  rw [readbitCommand, if_neg (not_not.2 hv), if_neg (not_not.2 hm),
    if_neg (not_or.2 ⟨Nat.not_le.2 hx, Nat.not_le.2 hy⟩), hb]
  rfl

end

/-- Settles O50: the three commands are one rule, which writes one `readBit`. (`readbitCommand` is
the model's name for that rule.) -/
theorem readbitCommand_spec : Obligations.ReadbitCommand := by
  refine ⟨by decide, fun c s => ?_⟩
  rw [exec_readbitOf]
  refine ⟨readbitCommand_of_invalid, fun hv hm hx hy => ⟨fun p q hp hq => ?_, fun hnone => ?_⟩⟩
  · rw [← readBit_eq_bne]
    exact readbitCommand_of_readCellBit hv hm hx hy (readCellBit_eq_some.2 ⟨p, q, hp, hq, rfl⟩)
  · exact readbitCommand_of_no_value hv hm hx hy (readCellBit_eq_none.2 hnone)

/-! ### DECODE's checks -/

/-- The four bytes of the length need 32 bits (R152, R156). -/
theorem four_le_recoveredBytes_iff (d : Dims) : 4 ≤ recoveredBytes d ↔ 32 ≤ 3 * d.w * d.h :=
  Nat.le_div_iff_mul_le (by decide)

/-- Settles O51: both checks stand before DECODE's first read. -/
theorem decodeChecks : Obligations.DecodeChecks := by
  refine fun s => ⟨fun h => ?_, fun hv hm h32 => ?_⟩
  · exact (execDecode_of_invalid h).trans (congrArg _ (s.finish_of_ne_zero (by decide)))
  · have hn : recoveredBytes s.orgDims < 4 :=
      Nat.not_le.1 (mt (four_le_recoveredBytes_iff _).1 (Nat.not_le.2 h32))
    exact (execDecode_of_no_prefix hv hm hn).trans
      (congrArg _ (State.finish_of_ne_zero _ (by decide)))

/-! ### The recovered bytes -/

/-- A recovered byte in terms of the two planes (R153). -/
theorem recBytes_bits {d : Dims} {ga gb : Memory 24} {n : Nat} {ds : List Byte}
    (hds : recBytes d ga gb n = some ds) {j b : Nat} (hj : j < n) (hb : b < 8) :
    ∃ p q, gridRead ga (coord d (8 * j + b)).x (coord d (8 * j + b)).y = some p ∧
      gridRead gb (coord d (8 * j + b)).x (coord d (8 * j + b)).y = some q ∧
      (ds.getD j 0).getLsbD (7 - b) = readBit p q (coord d (8 * j + b)).c :=
  readCellBit_eq_some.1 (recByte_bits ((recBytes_eq_some.1 hds).2 j hj) hb)

/-- The payload bytes follow the four of the length (R158). -/
theorem getElem?_recoveredPayload {ds : List Byte} {len j : Nat} (hl : len ≤ ds.length - 4)
    (hj : j < len) : ((ds.drop 4).take len)[j]? = some (ds.getD (4 + j) 0) := by
  have hin : 4 + j < ds.length := by omega
  rw [List.getElem?_take_of_lt hj, List.getElem?_drop, List.getElem?_eq_getElem hin,
    List.getD_eq_getElem _ _ hin]

/-- Settles O52: the reads all find values, so the bytes are there; DECODE's last two ends are
those of the length they start with. -/
theorem decodeRecoversBytes : Obligations.DecodeRecoversBytes := by
  intro s hv hm h32 hA hB
  have hn := (four_le_recoveredBytes_iff _).2 h32
  obtain ⟨ds, hds⟩ := Option.isSome_iff_exists.1 ((recBytes_isSome_iff hn).2 ⟨hA, hB⟩)
  have hlen : ds.length = recoveredBytes s.orgDims := (recBytes_eq_some.1 hds).1
  refine ⟨ds, bigEndian (ds.take 4), hlen, fun j b hj hb => recBytes_bits hds (hlen ▸ hj) hb,
    bigEndian_take_toNat (hlen ▸ hn), fun hl => ?_, fun hl => ?_⟩
  · exact (execDecode_of_truncated hv hm hn hds (hlen ▸ hl)).trans
      (congrArg _ (State.finish_of_ne_zero _ (by decide)))
  · have hdec := (execDecode_of_recovered hv hm hn hds (hlen ▸ hl)).trans
      (congrArg _ (State.finish_zero _))
    refine ⟨_, hdec, fun j hj => ?_, (execDecode_frame hdec).2⟩
    have hpay := length_recoveredPayload hds (hlen ▸ hl)
    rw [bufRead_bufWriteAll (hj.trans_eq hpay.symm), getElem?_recoveredPayload hl hj]

/-! ### Planes that hold a frame -/

/-- The bytes DECODE recovers from two planes begin with the frame of the payload in `pin`
(R84). -/
def recoversFrame (d : Dims) (ga gb : Memory 24) (len : Word) (pin : Memory 8) : Prop :=
  ∀ j, j < 4 + len.toNat → recByte d ga gb j = frameByte len pin j

/-- A frame that fits is no longer than the recovered bytes (R102, R152). -/
theorem fits_iff_le_recoveredBytes (n : Nat) (d : Dims) : fits n d ↔ 4 + n ≤ recoveredBytes d := by
  rw [fits_iff, frameBits, recoveredBytes]
  omega

section
variable {d : Dims} {ga gb : Memory 24} {len : Word} {pin : Memory 8} {n : Nat} {ds : List Byte}
  (hframe : recoversFrame d ga gb len pin) (hds : recBytes d ga gb n = some ds)
  (hfit : 4 + len.toNat ≤ n)
include hframe hds hfit

theorem frameByte_of_recBytes {j : Nat} (hj : j < 4 + len.toNat) :
    frameByte len pin j = some (ds.getD j 0) :=
  (hframe j hj).symm.trans ((recBytes_eq_some.1 hds).2 j (hj.trans_le hfit))

/-- The length DECODE takes from the first four bytes is the frame's (R84, R154). -/
theorem bigEndian_of_recoversFrame : bigEndian (ds.take 4) = len := by
  have hbyte := fun j (hj : j < 4) =>
    frameByte_of_recBytes hframe hds hfit (Nat.lt_add_right len.toNat hj)
  have hlen := (recBytes_eq_some.1 hds).1
  rw [take_four (by omega), ← Option.some.inj (hbyte 0 (by decide)),
    ← Option.some.inj (hbyte 1 (by decide)), ← Option.some.inj (hbyte 2 (by decide)),
    ← Option.some.inj (hbyte 3 (by decide)), bigEndian_prefix]

end

/-- DECODE of two planes that hold a frame writes the frame's payload, and ends without an error
(R158, R160). -/
theorem execDecode_of_recoversFrame {s : State} {len : Word} {pin : Memory 8}
    (hv : s.validDims s.orgDims) (hm : s.modDims = s.orgDims) (hf : fits len.toNat s.orgDims)
    (hA : cellsHold s.gridA s.orgDims) (hB : cellsHold s.gridB s.orgDims)
    (hframe : recoversFrame s.orgDims s.gridA s.gridB len pin) :
    ∃ vs : List Byte, vs.length = len.toNat ∧
      (∀ j, j < len.toNat → vs[j]? = bufRead pin j) ∧
      execDecode s =
        .next (State.endedOk { s with outLen := len, pout := bufWriteAll s.pout 0 vs }) := by
  have hfit := (fits_iff_le_recoveredBytes _ _).1 hf
  have hn : 4 ≤ recoveredBytes s.orgDims := by omega
  have hl : len.toNat ≤ recoveredBytes s.orgDims - 4 := by omega
  obtain ⟨ds, hds⟩ := Option.isSome_iff_exists.1 ((recBytes_isSome_iff hn).2 ⟨hA, hB⟩)
  obtain rfl := bigEndian_of_recoversFrame hframe hds hfit
  refine ⟨_, length_recoveredPayload hds hl, fun j hj => ?_,
    (execDecode_of_recovered hv hm hn hds hl).trans (congrArg _ (State.finish_zero _))⟩
  rw [getElem?_recoveredPayload ((recBytes_eq_some.1 hds).1 ▸ hl) hj,
    ← frameByte_of_recBytes hframe hds hfit (Nat.add_lt_add_left hj 4), Nat.add_comm 4 j, frameByte]

/-- DECODE of the empty payload's frame writes OUT_LEN and STATUS only (R161, R162). -/
theorem execDecode_of_recoversFrame_empty {s : State} {pin : Memory 8}
    (hv : s.validDims s.orgDims) (hm : s.modDims = s.orgDims)
    (hf : fits (0 : Word).toNat s.orgDims) (hA : cellsHold s.gridA s.orgDims)
    (hB : cellsHold s.gridB s.orgDims)
    (hframe : recoversFrame s.orgDims s.gridA s.gridB 0 pin) :
    execDecode s = .next (State.endedOk { s with outLen := 0 }) := by
  obtain ⟨vs, hlen, -, hdec⟩ := execDecode_of_recoversFrame hv hm hf hA hB hframe
  obtain rfl := List.eq_nil_of_length_eq_zero hlen
  exact hdec

/-! ### Identical planes -/

/-- Where the planes agree, every recovered bit is 0, so the bytes of the length are 0 (R161). -/
theorem recoversFrame_of_agree {d : Dims} {ga gb : Memory 24} (hn : 4 ≤ recoveredBytes d)
    (hA : cellsHold ga d)
    (hagree : ∀ x y, x < d.w → y < d.h → gridRead gb x y = gridRead ga x y) :
    recoversFrame d ga gb 0 [] := by
  have h32 := (four_le_recoveredBytes_iff d).1 hn
  have hbit : ∀ i, i < 32 → recBit d ga gb i = some false := by
    intro i hi
    obtain ⟨hx, hy, -⟩ := coord_bounds (hi.trans_le h32)
    obtain ⟨p, hp⟩ := Option.isSome_iff_exists.1 (hA _ _ hx hy)
    exact readCellBit_eq_some.2 ⟨p, p, hp, (hagree _ _ hx hy).trans hp, (readBit_self p _).symm⟩
  have hzero : ∀ j, j < 4 → frameByte 0 [] j = some 0 := by decide
  intro j hj
  have hj : j < 4 := hj
  rw [hzero j hj, recByte_of_bits (t := fun _ => false) fun b hb => hbit _ (by omega)]
  rfl

/-- Settles O54: identical planes hold the frame of the empty payload. -/
theorem identicalGridsDecodeEmpty : Obligations.IdenticalGridsDecodeEmpty := by
  intro s hv hm hn hA hagree
  have hB : cellsHold s.gridB s.orgDims := fun x y hx hy => by
    rw [hagree x y hx hy]
    exact hA x y hx hy
  exact execDecode_of_recoversFrame_empty hv hm ((fits_iff_le_recoveredBytes 0 _).2 hn) hA hB
    (recoversFrame_of_agree hn hA hagree)

end Sys2Proof.Machine
end

section
/-! O55, O56 (R160, R162): ENCODE, then DECODE, as two perform steps and as a run with its polls. -/

namespace Sys2Proof.Machine

/-! ### DECODE after ENCODE -/

section
variable {d : Dims} {len : Word} {pin : Memory 8} {a b g : Memory 24}
  (hf : fits len.toNat d) (hg : encodedGrid d len pin a b = some g)
include hf hg

theorem cellsHold_of_encodedGrid : cellsHold a d :=
  ((encodedGrid_isSome hf).1 (Option.isSome_of_eq_some hg)).1

theorem cellsHold_encodedGrid (hd : d.h < 65536) : cellsHold g d := by
  intro x y hx hy
  obtain ⟨_, q, -, hq, -⟩ := (encodedGrid_read hd hf hg).1 x y hx hy
  exact Option.isSome_of_eq_some hq

end

/-- What `t` keeps of a successful ENCODE of `s`: the operands DECODE reads, and the buffer it
writes. -/
structure EncodedFrom (s t : State) : Prop where
  orgDim : t.orgDim = s.orgDim
  modDim : t.modDim = s.orgDim
  geomMax : t.geomMax = s.geomMax
  gridA : t.gridA = s.gridA
  gridB : encodedGrid s.orgDims s.len s.pin s.gridA s.gridB = some t.gridB
  pout : t.pout = s.pout

section
variable {s t : State} (hv : s.validDims s.orgDims) (hf : fits s.lenNat s.orgDims)
include hv hf

/-- ENCODE whose reads all find values succeeds (R132). -/
theorem execEncode_encodedFrom
    (hsome : (encodedGrid s.orgDims s.len s.pin s.gridA s.gridB).isSome = true) :
    ∃ t, execEncode s = .next t ∧ t.status = s.status.finish 0 ∧ EncodedFrom s t := by
  obtain ⟨g, hg⟩ := Option.isSome_iff_exists.1 hsome
  exact ⟨_, execEncode_of_encodedGrid hv hf hg, rfl,
    { orgDim := rfl, modDim := rfl, geomMax := rfl, gridA := rfl, gridB := hg, pout := rfl }⟩

/-- DECODE after ENCODE gives the payload back (R160). -/
theorem EncodedFrom.execDecode (h : EncodedFrom s t) :
    ∃ vs : List Byte, vs.length = s.lenNat ∧
      (∀ j, j < s.lenNat → vs[j]? = bufRead s.pin j) ∧
      execDecode t =
        .next (State.endedOk { t with outLen := s.len, pout := bufWriteAll s.pout 0 vs }) := by
  have hd := State.orgDims_congr h.orgDim
  have hh := (State.validDims_lt hv).2.2.2
  rw [← h.pout]
  refine execDecode_of_recoversFrame ?_ ((congrArg dimsOf h.modDim).trans hd.symm) ?_ ?_ ?_ ?_
  · rwa [State.validDims_congr h.geomMax, hd]
  · rwa [hd]
  · rw [hd, h.gridA]
    exact cellsHold_of_encodedGrid hf h.gridB
  · rw [hd]
    exact cellsHold_encodedGrid hf h.gridB hh
  · rw [hd, h.gridA]
    exact fun j => recByte_encodedGrid hh hf h.gridB

end

/-! ### The empty payload -/

theorem capacity_nonneg_iff (d : Dims) : 0 ≤ capacity d ↔ 4 ≤ recoveredBytes d :=
  fits_iff_le_recoveredBytes 0 d

theorem fits_of_execEncode {s t : State} (h : execEncode s = .next t) (herr : t.status.err = 0) :
    fits s.lenNat s.orgDims := by
  rcases execEncode_next h with ⟨-, rfl⟩ | ⟨-, -, rfl⟩ | ⟨-, hf, -⟩
  · exact absurd herr (by simp)
  · exact absurd herr (by simp)
  · exact hf

/-- Settles O56: with no payload bytes, ENCODE's reads are those of plane A, and DECODE writes no
byte. -/
theorem emptyPayloadRoundTrip : Obligations.EmptyPayloadRoundTrip := by
  intro s hlen hv hA
  have hfits : fits s.lenNat s.orgDims ↔ 0 ≤ capacity s.orgDims := by
    rw [State.lenNat, hlen]
    exact Iff.rfl
  have hencode (hcap : 0 ≤ capacity s.orgDims) :=
    execEncode_encodedFrom hv (hfits.2 hcap) ((encodedGrid_isSome (hfits.2 hcap)).2
      ⟨hA, fun j hj => absurd hj (by simp [hlen])⟩)
  refine ⟨⟨fun ⟨t, ht, herr⟩ => hfits.1 (fits_of_execEncode ht herr), fun hcap => ?_⟩,
    capacity_nonneg_iff _, fun hcap => ?_⟩
  · obtain ⟨t, ht, hstatus, -⟩ := hencode hcap
    exact ⟨t, ht, congrArg Status.err hstatus⟩
  · obtain ⟨t, ht, -, hfrom⟩ := hencode hcap
    obtain ⟨vs, hvs, -, hdec⟩ := hfrom.execDecode hv (hfits.2 hcap)
    obtain rfl : vs = [] := List.eq_nil_of_length_eq_zero (by rw [hvs, State.lenNat, hlen]; rfl)
    exact ⟨t, _, ht, hdec, rfl, hlen, rfl⟩

/-! ### The moves of a wait -/

theorem run_add (m n : Nat) (s : State) : run (m + n) s = run n (run m s) := by
  induction m generalizing s with
  | zero => rw [Nat.zero_add]; rfl
  | succ m ih => rw [Nat.succ_add]; exact ih (advance s)

theorem advance_of_next {s t : State} (hs : s.faults = []) (h : step s = .next t) :
    advance s = t := by simp [advance, hs, h]

/-- A read of STATUS, whatever BUSY is (R57). -/
theorem advance_statusRead {s : State} {ts : List Turn} (h : s.nextTurn (readTurn .status) ts) :
    advance s = { s with turns := ts, reply := some (.word s.status.word) } :=
  advance_of_next h.1 ((step_of_host h).trans (transact_status _))

/-- Polling changes the turns and the reply only (R62). -/
theorem run_polls (n : Nat) {s : State} {ts : List Turn} (hf : s.faults = [])
    (h : s.turns = List.replicate n (readTurn .status) ++ ts) :
    run n s = { s with
      turns := ts
      reply := if n = 0 then s.reply else some (.word s.status.word) } := by
  induction n generalizing s with
  | zero => subst h; rfl
  | succ n ih =>
    rw [run, advance_statusRead ⟨hf, h⟩, ih (by exact hf) rfl, if_neg (Nat.succ_ne_zero n)]
    exact congrArg (fun r => { s with turns := ts, reply := r }) (ite_self _)

theorem advance_of_pending {s t : State} {ts : List Turn} {i : Instr}
    (h : s.nextTurn .sequencer ts) (hb : s.status.busy = true) (hd : decode s.cmd = some i)
    (ht : exec i { s with turns := ts } = .next t) : advance s = t :=
  advance_of_next h.1 ((step_of_pending ⟨h.1, .inl h.2⟩ hb).trans
    ((perform_of_decode (s := { s with turns := ts }) hd).trans ht))

/-- The issue of a command by a host write to CMD (R170). -/
theorem advance_issue {s : State} {v : Word} {ts : List Turn}
    (h : s.nextTurn (writeTurn .cmd v) ts) (hb : s.status.busy = false) :
    advance s = (State.issue { s with turns := ts } v).noAnswer :=
  advance_of_next h.1 (step_of_writeReg h hb rfl (by decide))

/-- The end of a wait: the perform step, and the read that finds BUSY = 0 (R89). -/
theorem run_perform_statusRead {s t : State} {ts : List Turn} {i : Instr}
    (h : s.nextTurn .sequencer (readTurn .status :: ts)) (hb : s.status.busy = true)
    (hd : decode s.cmd = some i)
    (ht : exec i { s with turns := readTurn .status :: ts } = .next t) :
    run 2 s = { t with turns := ts, reply := some (.word t.status.word) } := by
  obtain ⟨hsame, -⟩ := exec_next ht
  rw [run, run, run, advance_of_pending h hb hd ht,
    advance_statusRead ⟨hsame.faults.trans h.1, hsame.turns⟩]

/-- A wait for a pending command that completes (R89). The command starts from the state that the
polls leave. -/
theorem run_wait (n : Nat) {s : State} {ts : List Turn} {i : Instr} (hf : s.faults = [])
    (h : s.turns = waitTurns n ++ ts) (hb : s.status.busy = true) (hd : decode s.cmd = some i) :
    ∃ r, ∀ t, exec i { s with turns := readTurn .status :: ts, reply := r } = .next t →
      run (n + 2) s = { t with turns := ts, reply := some (.word t.status.word) } := by
  rw [waitTurns, List.append_assoc] at h
  refine ⟨if n = 0 then s.reply else some (.word s.status.word), fun t ht => ?_⟩
  rw [run_add, run_polls n hf h]
  exact run_perform_statusRead ⟨hf, rfl⟩ hb hd ht

/-- A pending ENCODE up to the issue of the next command: neither the wait nor the issue touches an
operand of DECODE. -/
theorem run_encode_issue (m : Nat) {s : State} {v : Word} {ts : List Turn} (hfaults : s.faults = [])
    (hb : s.status.busy = true) (hcmd : s.cmd = 0x00000006)
    (hturns : s.turns = waitTurns m ++ writeTurn .cmd v :: ts) (hv : s.validDims s.orgDims)
    (hf : fits s.lenNat s.orgDims) (hA : cellsHold s.gridA s.orgDims)
    (hpin : bytesHold s.pin s.lenNat) :
    ∃ u, run (m + 3) s = u ∧ u.faults = [] ∧ u.turns = ts ∧ u.status.busy = true ∧ u.cmd = v ∧
      EncodedFrom s u := by
  obtain ⟨r, hwait⟩ := run_wait (i := .encode) m hfaults hturns hb (hcmd ▸ by decide)
  obtain ⟨t, ht, hstatus, hfrom⟩ := execEncode_encodedFrom
    (s := { s with turns := _, reply := r }) hv hf ((encodedGrid_isSome hf).2 ⟨hA, hpin⟩)
  have htfaults : t.faults = [] := (exec_next (i := .encode) ht).1.faults.trans hfaults
  have hidle : t.status.busy = false := by rw [hstatus]; rfl
  have hrun : run (m + 3) s = (State.issue { t with turns := ts } v).noAnswer := by
    rw [run_add (m + 2) 1, hwait t ht]
    exact advance_issue ⟨htfaults, rfl⟩ hidle
  exact ⟨_, hrun, htfaults, rfl, rfl, rfl, { hfrom with }⟩

/-- Settles O55: the two waits around the issue of DECODE. -/
theorem encodeDecodeRoundTrip : Obligations.EncodeDecodeRoundTrip := by
  intro s ts m n hfaults hb hcmd hturns hv hf hA hpin
  rw [encodeThenDecode, List.append_assoc] at hturns
  obtain ⟨u, hissue, hufaults, huturns, hub, hucmd, hfrom⟩ :=
    run_encode_issue m hfaults hb hcmd hturns hv hf hA hpin
  obtain ⟨r, hwait⟩ := run_wait (i := .decode) n hufaults huturns hub (hucmd ▸ by decide)
  have hfrom : EncodedFrom s { u with turns := readTurn .status :: ts, reply := r } :=
    { hfrom with }
  obtain ⟨vs, hlen, hvs, hdec⟩ := hfrom.execDecode hv hf
  have hrun : run (m + n + 5) s = run (n + 2) u := by
    rw [show m + n + 5 = (m + 3) + (n + 2) by omega, run_add, hissue]
  refine ⟨_, hrun.trans (hwait _ hdec), hufaults, rfl, rfl, rfl, rfl, rfl, rfl, fun j hj => ?_,
    fun a ha => ?_⟩
  · exact (bufRead_bufWriteAll (hj.trans_eq hlen.symm)).trans (hvs j hj)
  · refine (read_bufWriteAll s.pout 0 vs a).trans (if_neg fun hin => ?_)
    rw [hlen, Nat.zero_add] at hin
    exact Nat.not_lt.2 ha hin.2

end Sys2Proof.Machine
end

section
/-! O5, O6, O7, O12, O13 (R170, R171, R174, R190, R211): the life of a command, from its issue to
its perform step, in the equations of the turn that comes next. -/

namespace Sys2Proof.Machine

/-- Settles O5: with BUSY = 1 the sequencer's move is the perform step, which decodes CMD. -/
theorem stepRunsDecodedCommand : Obligations.StepRunsDecodedCommand := fun s ts _ h hb hd =>
  (step_of_pending h hb).trans (perform_of_decode (s := { s with turns := ts }) hd)

/-- Settles O6: with BUSY = 0 a write to offset 0 of the register map is the issue, and with
BUSY = 1 it is no read of STATUS. -/
theorem issueOfCommand : Obligations.IssueOfCommand := fun _ _ _ h =>
  ⟨fun hb => step_of_writeReg h hb rfl (by decide),
    fun hb => (step_of_host h).trans (transact_busy hb nofun)⟩

/-- Settles O7: the causes of R174 are the decoder's, so the perform step ends with code 1. -/
theorem illegalCommandEnds : Obligations.IllegalCommandEnds := by
  intro s ts h hb hillegal
  have hd : decode s.cmd = none := (illegalWordsByField s.cmd).2 hillegal
  have hperform := perform_of_illegal (s := { s with turns := ts }) hd
  rw [step_of_pending h hb, hperform, State.finish_of_ne_zero _ (by decide)]

/-- Settles O12: the sequencer's turn passes while BUSY = 0. -/
theorem idleHoldsState : Obligations.IdleHoldsState := fun _ _ h hb =>
  (step_of_sequencerNext h).trans (sequencerTurn_idle hb)

/-- Settles O13: the polls leave BUSY, the fault record and the sequencer's turn as they were, so
its move is the perform step. -/
theorem pollingReachesPerform : Obligations.PollingReachesPerform := by
  intro n s ts hf hb hturns hts
  have hrun := run_polls n hf hturns
  have hnext : (run n s).sequencerNext ts.tail := by
    rw [hrun]
    rcases hts with rfl | ⟨us, rfl⟩
    · exact ⟨hf, .inr ⟨rfl, rfl⟩⟩
    · exact ⟨hf, .inl rfl⟩
  have hbusy : (run n s).status.busy = true := by rw [hrun]; exact hb
  exact ⟨hrun, step_of_pending hnext hbusy⟩

end Sys2Proof.Machine
end

section
/-! O8, O9, O59 (R60, R171 to R173, R180): how a command can end, and what it leaves when it ends
with an error. -/

namespace Sys2Proof.Machine

/-- Settles O8: the end of a perform step writes all four fields, with a code that `exec_next`
lists. -/
theorem commandEndsStatus : Obligations.CommandEndsStatus := by
  intro i s t h
  obtain ⟨-, code, hcode, hstatus⟩ := exec_next h
  have hrange : code.toNat ≤ 4 ∧ code ≠ 1 := by
    rcases hcode with rfl | rfl | rfl | rfl <;> decide
  rw [hstatus]
  exact ⟨rfl, rfl, hrange.1, hrange.2, rfl⟩

/-! ### The outcomes of a command -/

/-- The two outcomes R171 and R180 leave to a command. -/
def endsOrUninitRead (o : Host.Outcome State Fault Refusal) : Prop :=
  (∃ t, o = .next t) ∨ o = .fault .uninitRead

theorem endsOrUninitRead_uninitRead : endsOrUninitRead uninitRead := .inr rfl

theorem endsOrUninitRead_succeed (s : State) : endsOrUninitRead (succeed s) := .inl ⟨_, rfl⟩

theorem endsOrUninitRead_raiseError (e : Err) (s : State) : endsOrUninitRead (raiseError e s) :=
  .inl ⟨_, rfl⟩

/-- A check that raises an error adds no other outcome. -/
theorem endsOrUninitRead_check {p : Prop} [Decidable p] {e : Err} {s : State}
    {o : Host.Outcome State Fault Refusal} (h : endsOrUninitRead o) :
    endsOrUninitRead (if p then raiseError e s else o) := by
  split
  · exact endsOrUninitRead_raiseError e s
  · exact h

/-- CAPACITY reads no memory, so it always ends. -/
theorem execCapacity_ends (s : State) : ∃ t, execCapacity s = .next t := by
  by_cases hv : s.validDims s.orgDims
  · by_cases hf : fits s.lenNat s.orgDims
    · exact ⟨_, execCapacity_of_fits hv hf⟩
    · exact ⟨_, execCapacity_of_not_fits hv hf⟩
  · exact ⟨_, execCapacity_of_invalid hv⟩

/-- COORD reads no memory, so it always ends. -/
theorem execCoord_ends (s : State) : ∃ t, execCoord s = .next t := by
  by_cases hbad : ¬ s.validDims s.orgDims ∨ 3 * s.orgDims.w * s.orgDims.h ≤ s.idxNat
  · exact ⟨_, execCoord_of_invalid hbad⟩
  · obtain ⟨hv, hi⟩ := not_or.1 hbad
    exact ⟨_, execCoord_of_valid (not_not.1 hv) (Nat.lt_of_not_le hi)⟩

theorem execFramebit_endsOrUninitRead (s : State) : endsOrUninitRead (execFramebit s) := by
  unfold execFramebit
  refine endsOrUninitRead_check (endsOrUninitRead_check ?_)
  split
  · exact endsOrUninitRead_uninitRead
  · exact endsOrUninitRead_succeed _

theorem execMap_endsOrUninitRead (s : State) : endsOrUninitRead (execMap s) := by
  unfold execMap
  refine endsOrUninitRead_check (endsOrUninitRead_check (endsOrUninitRead_check ?_))
  split
  · exact endsOrUninitRead_uninitRead
  · exact endsOrUninitRead_succeed _

theorem toggleCommand_endsOrUninitRead (c : Channel) (s : State) :
    endsOrUninitRead (toggleCommand c s) := by
  unfold toggleCommand
  refine endsOrUninitRead_check (endsOrUninitRead_check ?_)
  split
  · exact endsOrUninitRead_uninitRead
  · exact endsOrUninitRead_succeed _

theorem execEncode_endsOrUninitRead (s : State) : endsOrUninitRead (execEncode s) := by
  unfold execEncode
  refine endsOrUninitRead_check (endsOrUninitRead_check ?_)
  split
  · exact endsOrUninitRead_uninitRead
  · exact endsOrUninitRead_succeed _

theorem readbitCommand_endsOrUninitRead (c : Channel) (s : State) :
    endsOrUninitRead (readbitCommand c s) := by
  unfold readbitCommand
  refine endsOrUninitRead_check (endsOrUninitRead_check (endsOrUninitRead_check ?_))
  split
  · exact endsOrUninitRead_uninitRead
  · exact endsOrUninitRead_succeed _

theorem execDecode_endsOrUninitRead (s : State) : endsOrUninitRead (execDecode s) := by
  unfold execDecode
  refine endsOrUninitRead_check (endsOrUninitRead_check (endsOrUninitRead_check ?_))
  split
  · exact endsOrUninitRead_uninitRead
  · exact endsOrUninitRead_check (endsOrUninitRead_succeed _)

theorem exec_endsOrUninitRead (i : Instr) (s : State) : endsOrUninitRead (exec i s) := by
  cases i with
  | capacity => exact .inl (execCapacity_ends s)
  | coord => exact .inl (execCoord_ends s)
  | framebit => exact execFramebit_endsOrUninitRead s
  | map => exact execMap_endsOrUninitRead s
  | toggleR | toggleG | toggleB => exact toggleCommand_endsOrUninitRead _ s
  | encode => exact execEncode_endsOrUninitRead s
  | readbitR | readbitG | readbitB => exact readbitCommand_endsOrUninitRead _ s
  | decode => exact execDecode_endsOrUninitRead s

/-- Settles O9: checks raise errors, a read of no value is UNINIT_READ, and the two commands without
a memory read always end. -/
theorem commandOutcomes : Obligations.CommandOutcomes :=
  ⟨exec_endsOrUninitRead, fun s => ⟨execCapacity_ends s, execCoord_ends s⟩⟩

/-! ### The end with an error -/

theorem toggleCommand_error_frame {c : Channel} {s t : State} (h : toggleCommand c s = .next t)
    (herr : t.status.err ≠ 0) : t = { s with status := t.status } := by
  rcases toggleCommand_next h with ⟨-, rfl⟩ | ⟨-, -, -, g, -, rfl⟩
  · rfl
  · exact absurd rfl herr

theorem readbitCommand_error_frame {c : Channel} {s t : State} (h : readbitCommand c s = .next t)
    (herr : t.status.err ≠ 0) : t = { s with status := t.status } := by
  rcases readbitCommand_next h with ⟨-, rfl⟩ | ⟨-, -, -, -, b, -, rfl⟩
  · rfl
  · exact absurd rfl herr

/-- Settles O59: every end with an error stands before the command's writes but those of CAP and
OUT_LEN. -/
theorem errorsWriteNoMemory : Obligations.ErrorsWriteNoMemory := by
  intro i s t h herr
  cases i with
  | capacity => rcases execCapacity_next h with ⟨-, rfl⟩ | ⟨-, -, rfl⟩ | ⟨-, -, rfl⟩ <;> rfl
  | coord =>
    rcases execCoord_next h with ⟨-, rfl⟩ | ⟨-, -, rfl⟩
    · rfl
    · exact absurd rfl herr
  | framebit =>
    rcases execFramebit_next h with ⟨-, rfl⟩ | ⟨-, -, b, -, rfl⟩
    · rfl
    · exact absurd rfl herr
  | map =>
    rcases execMap_next h with ⟨-, rfl⟩ | ⟨-, -, rfl⟩ | ⟨-, -, -, rfl⟩ | ⟨-, -, -, b, -, rfl⟩
    · rfl
    · rfl
    · rfl
    · exact absurd rfl herr
  | toggleR | toggleG | toggleB => rw [toggleCommand_error_frame h herr]
  | encode =>
    rcases execEncode_next h with ⟨-, rfl⟩ | ⟨-, -, rfl⟩ | ⟨-, -, g, -, rfl⟩
    · rfl
    · rfl
    · exact absurd rfl herr
  | readbitR | readbitG | readbitB => rw [readbitCommand_error_frame h herr]
  | decode =>
    rcases execDecode_next h with ⟨-, rfl⟩ | ⟨-, -, -, rfl⟩ |
      ⟨-, -, -, ds, -, ⟨-, rfl⟩ | ⟨-, rfl⟩⟩
    · rfl
    · rfl
    · rfl
    · exact absurd rfl herr

end Sys2Proof.Machine
end

section
/-! Reset and the builds (R200, R201, R204): which parameters a build accepts, what the host reads
after reset, the reset input, and the invariant after reset. -/

namespace Sys2Proof.Machine

/-! ### The builds -/

/-- R9's bound on PBUF_BYTES: the model's truncated subtraction is the rule's `max(0, ...)`. -/
theorem bufferBound_iff (n b : Nat) : n - 4 ≤ b ↔ max 0 ((n : Int) - 4) ≤ (b : Int) := by
  omega

/-- The legal parameters as R9 lists them. -/
theorem paramsLegal_iff (p : Params) :
    p.legal ↔ 1 ≤ p.gridMaxW ∧ p.gridMaxW ≤ 65535 ∧ 1 ≤ p.gridMaxH ∧ p.gridMaxH ≤ 65535 ∧
      max 0 (((3 * p.gridMaxW * p.gridMaxH / 8 : Nat) : Int) - 4) ≤ (p.pbufBytes : Int) ∧
      p.pbufBytes ≤ 4294967295 := by
  rw [← bufferBound_iff, Params.legal, and_assoc, and_assoc]
  simp only [Nat.reducePow, Nat.reduceSub]

theorem State.build_eq_none_iff {p : Params} : State.build p = none ↔ ¬ p.legal := by
  simp [State.build]

theorem State.build_eq_some_iff {p : Params} {s : State} :
    State.build p = some s ↔ p.legal ∧ State.resetWith p = s := by
  simp [State.build]

/-- Settles O16: a build is made when its parameters are legal, and its two constant registers hold
them. -/
theorem buildRefusesIllegalParams : Obligations.BuildRefusesIllegalParams := by
  intro p
  refine ⟨State.build_eq_none_iff.trans (not_congr (paramsLegal_iff p)), fun s hs => ?_⟩
  obtain ⟨hp, rfl⟩ := State.build_eq_some_iff.1 hs
  exact params_resetWith hp

/-! ### The registers after reset -/

/-- STATUS reads 0 after reset (R24, R200). -/
theorem resetOf_status_word (g b : Word) : (State.resetOf g b).status.word = 0 := by
  rw [State.resetOf_status]
  decide

/-- RES_MISC reads 0 after reset (R37, R200). -/
theorem resetOf_resMisc_word (g b : Word) : (State.resetOf g b).resMisc.word = 0 := by
  rw [State.resetOf_resMisc]
  decide

/-- Every register but GEOM_MAX and PBUF_SIZE reads 0 after reset (R200). -/
theorem resetOf_regRead (g b : Word) {off : Nat} (hg : off ≠ 0x2C) (hb : off ≠ 0x30) :
    (State.resetOf g b).regRead off = 0 := by
  unfold State.regRead
  split
  case h_2 => exact resetOf_status_word g b
  case h_11 => exact resetOf_resMisc_word g b
  case h_12 => exact absurd rfl hg
  case h_13 => exact absurd rfl hb
  all_goals rfl

/-- GEOM_MAX holds the two largest dimensions of the build (R38). -/
theorem resetWith_geomMax_toNat {p : Params} (h : p.legal) :
    (State.resetWith p).geomMax.toNat = 65536 * p.gridMaxW + p.gridMaxH := by
  have hp := params_resetWith h
  have hw : (State.resetWith p).gridMaxW = p.gridMaxW := congrArg Params.gridMaxW hp
  have hh : (State.resetWith p).gridMaxH = p.gridMaxH := congrArg Params.gridMaxH hp
  rw [← hw, ← hh]
  exact toNat_eq_hi16_lo16 _

/-- PBUF_SIZE holds the size of the build's buffers (R39). -/
theorem resetWith_pbufSize_toNat {p : Params} (h : p.legal) :
    (State.resetWith p).pbufSize.toNat = p.pbufBytes :=
  congrArg Params.pbufBytes (params_resetWith h)

/-- Settles O14: the constant registers hold the legal parameters, and everything else is as
`State.resetOf` lists it. -/
theorem stateAfterReset : Obligations.StateAfterReset := fun _ hp =>
  ⟨fun _ hg hb => resetOf_regRead _ _ hg hb, resetWith_geomMax_toNat hp,
    resetWith_pbufSize_toNat hp, fun _ _ => ⟨rfl, rfl⟩, fun _ => ⟨rfl, rfl⟩, rfl, rfl⟩

/-! ### The reset input -/

/-- The GEOM_MAX word of a state's parameters is its GEOM_MAX (R38). -/
theorem geomMaxWord_params (s : State) : geomMaxWord s.params = s.geomMax := by
  apply BitVec.eq_of_toNat_eq
  rw [geomMaxWord, pair16_toNat, toNat_eq_hi16_lo16 s.geomMax]
  simp [State.params, State.gridMaxW, State.gridMaxH]

/-- The PBUF_SIZE word of a state's parameters is its PBUF_SIZE (R39). -/
theorem pbufSizeWord_params (s : State) : pbufSizeWord s.params = s.pbufSize := by
  simp [pbufSizeWord, State.params, State.pbufBytes]

/-- The reset input gives the state after reset of the same build and keeps the turns (R201). -/
theorem resetInput_eq_resetWith (s : State) :
    resetInput s = { State.resetWith s.params with turns := s.turns } := by
  rw [State.resetWith, geomMaxWord_params, pbufSizeWord_params, resetInput]

/-- Settles O15: BUSY plays no part in a reset turn, and a state's two constant registers are its
parameters. -/
theorem resetInputAtAnyTime : Obligations.ResetInputAtAnyTime := fun s ts ⟨hf, ht⟩ =>
  ⟨resetInput { s with turns := ts }, step_of_turn hf ht, resetInput_eq_resetWith _, rfl, rfl, rfl⟩

/-! ### The invariant after reset -/

/-- With legal parameters in the two constant registers, the state after reset meets the invariant:
its memories are empty, and it is fresh (R26, R200). -/
theorem resetOf_inv {g b : Word} (h : (State.resetOf g b).params.legal) :
    (State.resetOf g b).Inv where
  params := h
  gridA := ⟨.nil, by simp⟩
  gridB := ⟨.nil, by simp⟩
  pin := ⟨.nil, by simp⟩
  pout := ⟨.nil, by simp⟩
  err := by simp
  busyDone := by simp
  idle _ _ := by simp [State.fresh]
  ch := by simp
  cap := by simp

/-- Settles O26: the parameters read back are the legal ones of the build. -/
theorem resetMeetsInvariant : Obligations.ResetMeetsInvariant := fun _ hp =>
  resetOf_inv ((params_resetWith hp).symm ▸ hp)

end Sys2Proof.Machine
end
